-- ==== Sys2Proof/Word.lean ====
section
/-! DEFINITION. The machine's words (spec/00_scope.md R8, spec/20_memory.md R60, R63, spec/30_encoding.md R80). -/

namespace Sys2Proof

/-- One byte: what every access of the block moves (R63), and the width of every register (R21). -/
abbrev Byte := BitVec 8

/-- A bus address (R60: "Addresses are 16 bits"). -/
abbrev Addr := BitVec 16

/-- The 32-bit word of a transaction (R80). -/
abbrev TxnWord := BitVec 32

/-- The side input of a DMA write: 160 bytes (R91). -/
abbrev DmaBlock := Vector Byte 160

end Sys2Proof
end

