-- ==== Sys2Proof/Syntax.lean ====
section
/-! DEFINITION. Syntax: the 12 register names, the transaction as it crosses the interface, the reasons a word is
refused, and the 29 transactions of spec/opcode_table.json, one constructor each. -/

namespace Sys2Proof

/-- The 12 registers of the register bank (R21). -/
inductive Reg where
  | lcdc | stat | scy | scx | ly | lyc | dma | bgp | obp0 | obp1 | wy | wx
deriving DecidableEq, Repr

/-- A transaction as the host issues it (R80): its word, and the side input that only a write to DMA uses (R91).
Every transaction carries a side input here; a transaction other than WR_DMA never looks at it (log 4). -/
structure Txn where
  word : TxnWord
  src  : DmaBlock
deriving DecidableEq, Repr

/-- What an ADDR reaches (R85): a register, a VRAM byte or an OAM byte. -/
inductive Target where
  | reg  (r : Reg)
  | vram (offset : Fin 8192)
  | oam  (offset : Fin 160)
deriving DecidableEq, Repr

/-- Why a word is refused (R251), one constructor per reason. -/
inductive ContractReason where
  /-- REFUSE_RESERVED_CLASS: CLS = 0b11 (R87 a). -/
  | reservedClass
  /-- REFUSE_RESERVED_BITS: Z6 ≠ 0 in a RD or WR, or DATA ≠ 0 in a RD (R87 b, c). -/
  | reservedBits
  /-- REFUSE_UNMAPPED_ADDRESS: ADDR in no row of R85 (R87 d). -/
  | unmappedAddress
deriving DecidableEq, Repr

/-- The transactions, one constructor per row of spec/opcode_table.json.
A write's `data` is the byte written (R82), `src` the side input of a DMA write (R91), `offset` the place in VRAM or
OAM (R84), `cycles` the count of ADVANCE, an unbounded natural of which a word carries 0..2^30-1 (R83, D25). -/
inductive Instr where
  | rdLcdc
  | rdStat
  | rdScy
  | rdScx
  | rdLy
  | rdLyc
  | rdDma
  | rdBgp
  | rdObp0
  | rdObp1
  | rdWy
  | rdWx
  | wrLcdc (data : Byte)
  | wrStat (data : Byte)
  | wrScy (data : Byte)
  | wrScx (data : Byte)
  | wrLy (data : Byte)
  | wrLyc (data : Byte)
  | wrDma (data : Byte) (src : DmaBlock)
  | wrBgp (data : Byte)
  | wrObp0 (data : Byte)
  | wrObp1 (data : Byte)
  | wrWy (data : Byte)
  | wrWx (data : Byte)
  | rdVram (offset : Fin 8192)
  | wrVram (offset : Fin 8192) (data : Byte)
  | rdOam (offset : Fin 160)
  | wrOam (offset : Fin 160) (data : Byte)
  | advance (cycles : Nat)
deriving DecidableEq, Repr

end Sys2Proof
end

