-- ==== Sys2Proof/Config.lean ====
section
/-! DEFINITION. The parameters of the hardware (spec/00_scope.md R6, R7): the fixed ones, and the ones the source
leaves open. -/

namespace Sys2Proof

/-! ## Fixed parameters (R6) -/

/-- SCREEN_W: pixels of a line. -/
abbrev Config.screenW : Nat := 160
/-- SCREEN_H: visible lines. -/
abbrev Config.screenH : Nat := 144
/-- VRAM_SIZE in bytes. -/
abbrev Config.vramSize : Nat := 8192
/-- OAM_SIZE in bytes. -/
abbrev Config.oamSize : Nat := 160
/-- DOTS_PER_STEP: the increment in which cycles are processed. -/
abbrev Config.dotsPerStep : Nat := 4
/-- DOTS_PER_LINE. -/
abbrev Config.dotsPerLine : Nat := 456
/-- MODE2_END: mode 2 for dot < 80. -/
abbrev Config.mode2End : Nat := 80
/-- MODE3_END: mode 3 for 80 ≤ dot < 252. -/
abbrev Config.mode3End : Nat := 252
/-- VBLANK_FIRST_LINE. -/
abbrev Config.vblankFirstLine : Nat := 144
/-- LAST_LINE: LY takes the values 0..153. -/
abbrev Config.lastLine : Nat := 153
/-- DOTS_PER_FRAME = 154 × 456. -/
abbrev Config.dotsPerFrame : Nat := 70224
/-- OUT_OF_GATE_READ: what a closed port reads as. -/
abbrev Config.outOfGateRead : Byte := 0xFF

/-! ## Open parameters (R7) -/

/-- OAM_BASE: the bus address of OAM byte 0 (R7, D21). PRESUMED: the default the spec takes from general knowledge
(G7). Unsafe only for a claim about an OAM bus address; decoding and encoding are defined for every base. Log 5. -/
def Config.oamBase : Addr := 0xFE00

/-- DMA_GATED: whether the DMA copy into OAM passes the mode gate (R205). The spec leaves it OPEN (D15), so it has no
body: no proof can see which of the two it is. Safe. Log 6. -/
opaque Config.dmaGated : Bool

/-- RESET_REGS, OBP0_INIT and OBP1_INIT: the registers' values at reset.
PRESUMED: the default table of 10_state.md R47, which the spec takes from the family's post-boot values (G9). Unsafe.
Log 7. DESIGN CHOICE: OBP0 and OBP1 are draws in R47; zero is named here. Unsafe. Log 8. -/
def Config.resetReg : Reg → Byte
  | .lcdc => 0x91
  | .stat => 0x85
  | .scy  => 0x00
  | .scx  => 0x00
  | .ly   => 0x00
  | .lyc  => 0x00
  | .dma  => 0xFF
  | .bgp  => 0xFC
  | .obp0 => 0x00
  | .obp1 => 0x00
  | .wy   => 0x00
  | .wx   => 0x00

end Sys2Proof
end

