-- ==== Sys2Proof/WellFormed.lean ====
section
/-! DEFINITION. Which transactions a transaction word can carry. Register offsets, VRAM and OAM offsets and the length
of the DMA side input are in range by their types; the one check left is the width of the cycle count. -/

namespace Sys2Proof

/-- N is 30 bits wide (R80): a word carries a cycle count of 0..2^30-1 (R83). -/
def Instr.wellFormed : Instr → Bool
  | .rdLcdc | .rdStat | .rdScy | .rdScx | .rdLy | .rdLyc | .rdDma | .rdBgp | .rdObp0 | .rdObp1 | .rdWy | .rdWx => true
  | .wrLcdc _ | .wrStat _ | .wrScy _ | .wrScx _ | .wrLy _ | .wrLyc _ | .wrDma _ _ | .wrBgp _ | .wrObp0 _ | .wrObp1 _
  | .wrWy _ | .wrWx _ => true
  | .rdVram _ | .wrVram _ _ | .rdOam _ | .wrOam _ _ => true
  | .advance cycles => decide (cycles < 2 ^ 30)

/-- An OAM base that the rest of the address decode leaves room for: the 160 bytes from it end inside the 16-bit
address space and meet neither VRAM nor the register bank (R60, R85). -/
def oamBaseFits (base : Addr) : Bool :=
  (decide (base.toNat + 160 ≤ 0x8000) || decide (0xA000 ≤ base.toNat)) &&
    (decide (base.toNat + 160 ≤ 0xFF40) || (decide (0xFF4C ≤ base.toNat) && decide (base.toNat + 160 ≤ 0x10000)))

end Sys2Proof
end

