-- ==== Sys2Proof/Decode.lean ====
section
/-! DEFINITION. Decoding a transaction (spec/30_encoding.md R80-R91), total on every word, and the encoder written from
the same tables. -/

namespace Sys2Proof

/-! ## The fields of a word (R80) -/

/-- CLS, bits 31:30. -/
def fieldCls (w : TxnWord) : BitVec 2 := w.extractLsb' 30 2
/-- Z6, bits 29:24. -/
def fieldZ6 (w : TxnWord) : BitVec 6 := w.extractLsb' 24 6
/-- DATA, bits 23:16. -/
def fieldData (w : TxnWord) : Byte := w.extractLsb' 16 8
/-- ADDR, bits 15:0. -/
def fieldAddr (w : TxnWord) : Addr := w.extractLsb' 0 16
/-- N, bits 29:0. -/
def fieldN (w : TxnWord) : BitVec 30 := w.extractLsb' 0 30

/-- The bus read class (R80). -/
def clsRd : BitVec 2 := 0b00
/-- The bus write class (R80). -/
def clsWr : BitVec 2 := 0b01
/-- The advance class (R80). -/
def clsAdv : BitVec 2 := 0b10
/-- The reserved class (R80). -/
def clsReserved : BitVec 2 := 0b11

/-! ## Address decode (R85) -/

/-- The bus address of a register (R21). -/
def regAddr : Reg → Addr
  | .lcdc => 0xFF40
  | .stat => 0xFF41
  | .scy  => 0xFF42
  | .scx  => 0xFF43
  | .ly   => 0xFF44
  | .lyc  => 0xFF45
  | .dma  => 0xFF46
  | .bgp  => 0xFF47
  | .obp0 => 0xFF48
  | .obp1 => 0xFF49
  | .wy   => 0xFF4A
  | .wx   => 0xFF4B

/-- The registers in address order (R21). -/
def regList : List Reg := [.lcdc, .stat, .scy, .scx, .ly, .lyc, .dma, .bgp, .obp0, .obp1, .wy, .wx]

/-- The register at an address, if any: "Address dispatch covers exactly 0xFF40-0xFF4B" (R85, R180). -/
def regAt (a : Addr) : Option Reg := regList.find? (fun r => regAddr r == a)

/-- What an address reaches, the rows of R85 in their order, with OAM at `base`. -/
def targetAt (base a : Addr) : Option Target :=
  match regAt a with
  | some r => some (.reg r)
  | none =>
    if hv : 0x8000 ≤ a.toNat ∧ a.toNat < 0xA000 then
      some (.vram ⟨a.toNat - 0x8000, by omega⟩)
    else if ho : base.toNat ≤ a.toNat ∧ a.toNat < base.toNat + 160 then
      some (.oam ⟨a.toNat - base.toNat, by omega⟩)
    else none

/-- The read transaction of a target (R85, column RD). -/
def readOf : Target → Instr
  | .reg .lcdc => .rdLcdc
  | .reg .stat => .rdStat
  | .reg .scy  => .rdScy
  | .reg .scx  => .rdScx
  | .reg .ly   => .rdLy
  | .reg .lyc  => .rdLyc
  | .reg .dma  => .rdDma
  | .reg .bgp  => .rdBgp
  | .reg .obp0 => .rdObp0
  | .reg .obp1 => .rdObp1
  | .reg .wy   => .rdWy
  | .reg .wx   => .rdWx
  | .vram o    => .rdVram o
  | .oam o     => .rdOam o

/-- The write transaction of a target (R85, column WR); only a write to DMA takes the side input (R91). -/
def writeOf (data : Byte) (src : DmaBlock) : Target → Instr
  | .reg .lcdc => .wrLcdc data
  | .reg .stat => .wrStat data
  | .reg .scy  => .wrScy data
  | .reg .scx  => .wrScx data
  | .reg .ly   => .wrLy data
  | .reg .lyc  => .wrLyc data
  | .reg .dma  => .wrDma data src
  | .reg .bgp  => .wrBgp data
  | .reg .obp0 => .wrObp0 data
  | .reg .obp1 => .wrObp1 data
  | .reg .wy   => .wrWy data
  | .reg .wx   => .wrWx data
  | .vram o    => .wrVram o data
  | .oam o     => .wrOam o data

/-! ## Decode -/

/-- What the decoder answers: a transaction, or the reason the word is refused (R87, R251). -/
inductive Decoded where
  | instr (i : Instr)
  | refused (r : ContractReason)
deriving DecidableEq, Repr

/-- Decoding with OAM at `base` (R80-R88). The refusal conditions are tried in the order of R87, so a word that meets
several gets the first one's reason (DESIGN CHOICE, safe: every such word is refused either way; log 12). -/
def decodeAt (base : Addr) (t : Txn) : Decoded :=
  if fieldCls t.word = clsReserved then .refused .reservedClass
  else if fieldCls t.word = clsAdv then .instr (.advance (fieldN t.word).toNat)
  else if fieldZ6 t.word ≠ 0 then .refused .reservedBits
  else if fieldCls t.word = clsRd ∧ fieldData t.word ≠ 0 then .refused .reservedBits
  else
    match targetAt base (fieldAddr t.word) with
    | none => .refused .unmappedAddress
    | some x =>
      if fieldCls t.word = clsRd then .instr (readOf x)
      else .instr (writeOf (fieldData t.word) t.src x)

/-- Decoding on this machine (OAM_BASE: log 5). -/
def decode (t : Txn) : Decoded := decodeAt Config.oamBase t

/-- A DMA side input of zeros, carried by the words that come without one. -/
def zeroBlock : DmaBlock := Vector.replicate 160 0

/-- The instruction of a table word: bit 0 of `w` is bit 0 of the transaction word, every bit above `nbits` and every
byte of the side input is zero. -/
def decodeTableWord (nbits w : Nat) : Option Instr :=
  match decode { word := BitVec.ofNat 32 (w % 2 ^ nbits), src := zeroBlock } with
  | .instr i => some i
  | .refused _ => none

/-! ## Encode (R81, R82, R83) -/

/-- R81: `w = {0b00, 0b000000, 0x00, ADDR}`. -/
def rdWord (a : Addr) : TxnWord := clsRd ++ (0 : BitVec 6) ++ (0 : BitVec 8) ++ a

/-- R82: `w = {0b01, 0b000000, DATA, ADDR}`. -/
def wrWord (a : Addr) (data : Byte) : TxnWord := clsWr ++ (0 : BitVec 6) ++ data ++ a

/-- R83: `w = {0b10, N}`. -/
def advWord (n : BitVec 30) : TxnWord := clsAdv ++ n

/-- The bus address of VRAM offset `o` (R41, R84). -/
def vramAddr (o : Fin 8192) : Addr := BitVec.ofNat 16 (0x8000 + o.val)

/-- The bus address of OAM offset `o` (R42, R84). -/
def oamAddr (base : Addr) (o : Fin 160) : Addr := BitVec.ofNat 16 (base.toNat + o.val)

/-- A transaction without side input. -/
def bareTxn (w : TxnWord) : Txn := { word := w, src := zeroBlock }

/-- Encoding with OAM at `base`. -/
def encodeAt (base : Addr) : Instr → Txn
  | .rdLcdc => bareTxn (rdWord (regAddr .lcdc))
  | .rdStat => bareTxn (rdWord (regAddr .stat))
  | .rdScy  => bareTxn (rdWord (regAddr .scy))
  | .rdScx  => bareTxn (rdWord (regAddr .scx))
  | .rdLy   => bareTxn (rdWord (regAddr .ly))
  | .rdLyc  => bareTxn (rdWord (regAddr .lyc))
  | .rdDma  => bareTxn (rdWord (regAddr .dma))
  | .rdBgp  => bareTxn (rdWord (regAddr .bgp))
  | .rdObp0 => bareTxn (rdWord (regAddr .obp0))
  | .rdObp1 => bareTxn (rdWord (regAddr .obp1))
  | .rdWy   => bareTxn (rdWord (regAddr .wy))
  | .rdWx   => bareTxn (rdWord (regAddr .wx))
  | .wrLcdc data => bareTxn (wrWord (regAddr .lcdc) data)
  | .wrStat data => bareTxn (wrWord (regAddr .stat) data)
  | .wrScy data  => bareTxn (wrWord (regAddr .scy) data)
  | .wrScx data  => bareTxn (wrWord (regAddr .scx) data)
  | .wrLy data   => bareTxn (wrWord (regAddr .ly) data)
  | .wrLyc data  => bareTxn (wrWord (regAddr .lyc) data)
  | .wrDma data src => { word := wrWord (regAddr .dma) data, src := src }
  | .wrBgp data  => bareTxn (wrWord (regAddr .bgp) data)
  | .wrObp0 data => bareTxn (wrWord (regAddr .obp0) data)
  | .wrObp1 data => bareTxn (wrWord (regAddr .obp1) data)
  | .wrWy data   => bareTxn (wrWord (regAddr .wy) data)
  | .wrWx data   => bareTxn (wrWord (regAddr .wx) data)
  | .rdVram o => bareTxn (rdWord (vramAddr o))
  | .wrVram o data => bareTxn (wrWord (vramAddr o) data)
  | .rdOam o => bareTxn (rdWord (oamAddr base o))
  | .wrOam o data => bareTxn (wrWord (oamAddr base o) data)
  | .advance cycles => bareTxn (advWord (BitVec.ofNat 30 cycles))

/-- Encoding on this machine. -/
def encode (i : Instr) : Txn := encodeAt Config.oamBase i

end Sys2Proof
end

