-- ==== Sys2Proof/Machine/State.lean ====
section
/-! DEFINITION. The state of the block (spec/10_state.md R20-R48), the reasons a step can stop, and reset
(spec/70_reset_and_hazards.md R280). -/

namespace Sys2Proof.Machine

/-- The four modes of the state machine (R34; the glossary's closed enumeration). -/
inductive Mode where
  | hblank | vblank | oamScan | drawing
deriving DecidableEq, Repr

/-- The kinds of interrupt request (R252). -/
inductive IrqKind where
  | lcdStat | vblank
deriving DecidableEq, Repr

/-- The events the block emits (R44). -/
inductive Event where
  /-- `emit Interrupt(k)`: the request `request_interrupt(kind)`. -/
  | interrupt (kind : IrqKind)
  /-- `emit Notify(VBLANK_ENTRY)`: the V-Blank-entry notification. -/
  | notifyVblankEntry
  /-- `emit DmaRequest(v)`: the DMA trigger toward the bus, with the written byte. -/
  | dmaRequest (value : Byte)
deriving DecidableEq, Repr

/-- One frame-buffer entry, four bytes in the order R, G, B, A (R43, R64 b). -/
structure Pixel where
  r : Byte
  g : Byte
  b : Byte
  a : Byte
deriving DecidableEq, Repr

/-- The register bank: 12 independent 8-bit registers (R21). -/
structure RegBank where
  lcdc : Byte
  stat : Byte
  scy  : Byte
  scx  : Byte
  ly   : Byte
  lyc  : Byte
  dma  : Byte
  bgp  : Byte
  obp0 : Byte
  obp1 : Byte
  wy   : Byte
  wx   : Byte
deriving DecidableEq, Repr

/-- A pixel FIFO (R40): state with one operation, `clear`, and no reader. The spec gives it no structure; the model
holds a list of 2-bit tokens. DESIGN CHOICE, safe. Log 11. -/
abbrev PixelFifo := List (BitVec 2)

/-- A byte memory of the block (VRAM, R41; OAM, R42) by offset: (offset, byte) pairs in the canonical form
`Memory.wf` of Machine/Ops.lean. -/
abbrev Memory := List Host.Cell

/-- The frame buffer by line (R43): (row number, the row's 160 entries) in the canonical form `FrameBuffer.wf` of
Machine/Ops.lean. -/
abbrev FrameBuffer := List (Nat × List Pixel)

/-- Why the machine stops with a fault: never. "The block raises no synchronous exception and has no fault state"
(R250), so there is no constructor. -/
inductive Fault where
deriving DecidableEq, Repr

/-- Why a transaction is refused. -/
inductive Refusal where
  /-- An instruction without a meaning in this model; raised by no arm of `exec`. Safe. -/
  | notModelled (mnemonic : String)
  /-- `refuse ContractViolation(reason)` (R251): raised by `step` for a word matched by no row of the table (R87).
  Safe: the spec refuses it, and the run ends. -/
  | contractViolation (reason : ContractReason)
deriving DecidableEq, Repr

/-- The state of the block: the record of R20, and two fields of the model's own by which the host's transactions come
in and the returned byte goes out.
The stored mode is STAT[1:0], no field of its own (R20). -/
structure State where
  /-- The 12 registers (R21). -/
  regs : RegBank
  /-- The dot counter (R37). -/
  dot : Nat
  /-- The cycle accumulator (R38). -/
  acc : Nat
  /-- The background pixel FIFO (R40). -/
  bgFifo : PixelFifo
  /-- The object pixel FIFO (R40). -/
  objFifo : PixelFifo
  /-- VRAM (R41). -/
  vram : Memory
  /-- OAM (R42). -/
  oam : Memory
  /-- The frame buffer FB (R43). -/
  fb : FrameBuffer
  /-- The output event trace, oldest first (R44). -/
  trace : List Event
  /-- The model's own: the transactions issued and not yet taken, oldest first (R69; log 1). -/
  pending : List Txn
  /-- The model's own: the byte the last transaction returned, none where it returned nothing (R81, R82; log 3). -/
  result : Option Byte
deriving DecidableEq, Repr

/-- What R280 leaves to the creator of the block: RESET_REGS (with OBP0_INIT and OBP1_INIT) and the draws VRAM_INIT,
OAM_INIT and FB_INIT. -/
structure ResetDraw where
  regs : RegBank
  vram : Memory
  oam  : Memory
  fb   : FrameBuffer
deriving DecidableEq, Repr

/-- Reset with given draws (R280): the registers, VRAM, OAM and FB as drawn, both counters 0, both FIFOs empty, the
trace empty. No transaction is pending and none has answered (log 1, log 3). -/
def State.resetWith (d : ResetDraw) : State where
  regs    := d.regs
  dot     := 0
  acc     := 0
  bgFifo  := []
  objFifo := []
  vram    := d.vram
  oam     := d.oam
  fb      := d.fb
  trace   := []
  pending := []
  result  := none

/-- The draws `State.reset` uses: the default RESET_REGS (log 7, log 8), and nothing listed in VRAM, OAM and FB, which
then read as the unlisted values of Machine/Ops.lean (DESIGN CHOICE, unsafe; log 9, log 10). -/
def ResetDraw.default : ResetDraw where
  regs :=
    { lcdc := Config.resetReg .lcdc
      stat := Config.resetReg .stat
      scy  := Config.resetReg .scy
      scx  := Config.resetReg .scx
      ly   := Config.resetReg .ly
      lyc  := Config.resetReg .lyc
      dma  := Config.resetReg .dma
      bgp  := Config.resetReg .bgp
      obp0 := Config.resetReg .obp0
      obp1 := Config.resetReg .obp1
      wy   := Config.resetReg .wy
      wx   := Config.resetReg .wx }
  vram := []
  oam  := []
  fb   := []

/-- The machine right after reset (R47, R280). -/
def State.reset : State := State.resetWith ResetDraw.default

end Sys2Proof.Machine
end

