-- ==== Sys2Proof/Machine/Flags.lean ====
section
/-! DEFINITION. The bits of LCDC and STAT (spec/10_state.md R22, R23, R34-R36, R48). The bit positions of LCDC and of the
STAT enables are the spec's general-knowledge facts G1 and G2 (log 13). -/

namespace Sys2Proof.Machine

/-! ## LCDC (R22) -/

/-- LCDC[7], LCD_EN. -/
def lcdEnable (lcdc : Byte) : Bool := lcdc.getLsbD 7
/-- LCDC[6], WIN_MAP: 1 selects 0x9C00. -/
def winMapBit (lcdc : Byte) : Bool := lcdc.getLsbD 6
/-- LCDC[5], WIN_EN. -/
def winEnable (lcdc : Byte) : Bool := lcdc.getLsbD 5
/-- LCDC[4], TILE_DATA: 1 selects 0x8000 and unsigned tile indices. -/
def tileDataBit (lcdc : Byte) : Bool := lcdc.getLsbD 4
/-- LCDC[3], BG_MAP: 1 selects 0x9C00. -/
def bgMapBit (lcdc : Byte) : Bool := lcdc.getLsbD 3

/-! ## STAT (R23) -/

/-- STAT[6], LYC_IE. -/
def lycIrqEnable (stat : Byte) : Bool := stat.getLsbD 6
/-- STAT[5], M2_IE. -/
def oamScanIrqEnable (stat : Byte) : Bool := stat.getLsbD 5
/-- STAT[4], M1_IE. -/
def vblankIrqEnable (stat : Byte) : Bool := stat.getLsbD 4
/-- STAT[3], M0_IE. -/
def hblankIrqEnable (stat : Byte) : Bool := stat.getLsbD 3
/-- STAT[2], LYC_EQ: the coincidence flag (R36). -/
def coincidence (stat : Byte) : Bool := stat.getLsbD 2

/-- The number of a mode (R34: 0 H-Blank, 1 V-Blank, 2 OAM scan, 3 Drawing). -/
def modeBits : Mode → BitVec 2
  | .hblank  => 0
  | .vblank  => 1
  | .oamScan => 2
  | .drawing => 3

/-- The mode of a number (R34). -/
def modeOfBits (b : BitVec 2) : Mode :=
  if b = 0 then .hblank else if b = 1 then .vblank else if b = 2 then .oamScan else .drawing

/-- STAT[1:0] as a mode: the stored mode (R34). -/
def statMode (stat : Byte) : Mode := modeOfBits (stat.extractLsb' 0 2)

/-- `reg[STAT][1:0] <- m` (R107-R110). -/
def statWithMode (stat : Byte) (m : Mode) : Byte := stat.extractLsb' 2 6 ++ modeBits m

/-- `reg[STAT][2] <- eq` (R102). -/
def statWithCoincidence (stat : Byte) (eq : Bool) : Byte :=
  stat.extractLsb' 3 5 ++ BitVec.ofBool eq ++ stat.extractLsb' 0 2

/-- What a bus write leaves in STAT: `(v & 0xFC) | (reg[STAT] & 0x03)` (R194). -/
def statAfterWrite (v stat : Byte) : Byte := (v &&& 0xFC) ||| (stat &&& 0x03)

/-- The effective mode: the stored mode with the LCD on, mode 0 with it off (R35). -/
def effectiveMode (lcdc stat : Byte) : Mode := if lcdEnable lcdc then statMode stat else .hblank

/-- What a bus read of STAT returns: `{reg[STAT][7:2], mode_eff}` (R182). -/
def statReadValue (lcdc stat : Byte) : Byte := statWithMode stat (effectiveMode lcdc stat)

/-! ## The gate (R220) -/

/-- `vram_open(m) = (m != 3)`. -/
def vramOpen (m : Mode) : Bool := decide (m ≠ .drawing)

/-- `oam_open(m) = (m != 2) and (m != 3)`. -/
def oamOpen (m : Mode) : Bool := decide (m ≠ .oamScan) && decide (m ≠ .drawing)

end Sys2Proof.Machine
end

