-- ==== Sys2Proof/Machine/Ops.lean ====
section
/-! DEFINITION. The named operations over the state: registers, VRAM, OAM, the frame buffer, the counters, the event
trace, and the host's side of a transaction. -/

namespace Sys2Proof.Machine

/-! ## Sparse tables

A list of (key, value) pairs, keys strictly rising, no entry equal to the value `d` an unlisted key reads as. -/

/-- The value at a key. -/
def sparseRead {α : Type} (d : α) : List (Nat × α) → Nat → α
  | [], _ => d
  | (k', v') :: m, k => if k = k' then v' else sparseRead d m k

/-- A key's entry taken out. -/
def sparseErase {α : Type} : List (Nat × α) → Nat → List (Nat × α)
  | [], _ => []
  | (k', v') :: m, k => if k = k' then sparseErase m k else (k', v') :: sparseErase m k

/-- An entry put in at its place. -/
def sparseInsert {α : Type} : List (Nat × α) → Nat → α → List (Nat × α)
  | [], k, v => [(k, v)]
  | (k', v') :: m, k, v => if k < k' then (k, v) :: (k', v') :: m else (k', v') :: sparseInsert m k v

/-- Writing a value at a key: the key's entry goes, and a new one comes unless the value is `d`, which an unlisted key
reads as. -/
def sparseWrite {α : Type} [DecidableEq α] (d : α) (m : List (Nat × α)) (k : Nat) (v : α) : List (Nat × α) :=
  if v = d then sparseErase m k else sparseInsert (sparseErase m k) k v

/-- The canonical form: keys strictly rising and below `size`, no entry equal to `d`. -/
def sparseWf {α : Type} [DecidableEq α] (d : α) (size : Nat) : List (Nat × α) → Bool
  | [] => true
  | (k, v) :: m => decide (k < size) && decide (v ≠ d) && m.all (fun e => decide (k < e.1)) && sparseWf d size m

/-! ## What nothing has written yet

R47 makes VRAM, OAM and FB draws at reset. These are the values unlisted places read as. DESIGN CHOICE, unsafe: logs 9
and 10. `State.resetWith` lists any other contents. -/

/-- What an unlisted byte of VRAM or OAM reads as (log 9). -/
def unlistedByte : Byte := 0x00

/-- What an entry of an unlisted frame-buffer row reads as (log 10). -/
def unlistedPixel : Pixel := { r := 0x00, g := 0x00, b := 0x00, a := 0x00 }

/-- What an unlisted frame-buffer row reads as (log 10). -/
def unlistedRow : List Pixel := List.replicate Config.screenW unlistedPixel

/-! ## Memories -/

/-- The canonical form of a memory of `size` bytes. -/
def Memory.wf (size : Nat) (m : Memory) : Bool := sparseWf unlistedByte size m

/-- The byte at an offset. -/
def Memory.readByte (m : Memory) (o : Nat) : Byte := sparseRead unlistedByte m o

/-- Writing the byte at an offset. -/
def Memory.writeByte (m : Memory) (o : Nat) (v : Byte) : Memory := sparseWrite unlistedByte m o v

/-- Writing a run of bytes from an offset on, one after the other. -/
def Memory.writeBytes (m : Memory) (o : Nat) : List Byte → Memory
  | [] => m
  | v :: vs => (m.writeByte o v).writeBytes (o + 1) vs

/-- The canonical form of the frame buffer: rows 0..143 of 160 entries each (R43). -/
def FrameBuffer.wf (f : FrameBuffer) : Bool :=
  sparseWf unlistedRow Config.screenH f && f.all (fun e => decide (e.2.length = Config.screenW))

/-- The row of a line. -/
def FrameBuffer.row (f : FrameBuffer) (y : Nat) : List Pixel := sparseRead unlistedRow f y

/-- The entry FB[y][x] (R43). -/
def FrameBuffer.pixel (f : FrameBuffer) (y x : Nat) : Pixel := (f.row y).getD x unlistedPixel

/-- Byte `i` of the frame buffer as a flat array: entry FB[y][x] stands at `(160*y + x)*4`, in the order R, G, B, A
(R43, D13; log 18). -/
def FrameBuffer.byteAt (f : FrameBuffer) (i : Nat) : Byte :=
  let p := f.pixel (i / 4 / Config.screenW) (i / 4 % Config.screenW)
  match i % 4 with
  | 0 => p.r
  | 1 => p.g
  | 2 => p.b
  | _ => p.a

/-! ## Registers (R10, R21) -/

/-- The value of a register in the bank. -/
def RegBank.get (b : RegBank) : Reg → Byte
  | .lcdc => b.lcdc
  | .stat => b.stat
  | .scy  => b.scy
  | .scx  => b.scx
  | .ly   => b.ly
  | .lyc  => b.lyc
  | .dma  => b.dma
  | .bgp  => b.bgp
  | .obp0 => b.obp0
  | .obp1 => b.obp1
  | .wy   => b.wy
  | .wx   => b.wx

/-- The bank with one register changed. -/
def RegBank.set (b : RegBank) (r : Reg) (v : Byte) : RegBank :=
  match r with
  | .lcdc => { b with lcdc := v }
  | .stat => { b with stat := v }
  | .scy  => { b with scy := v }
  | .scx  => { b with scx := v }
  | .ly   => { b with ly := v }
  | .lyc  => { b with lyc := v }
  | .dma  => { b with dma := v }
  | .bgp  => { b with bgp := v }
  | .obp0 => { b with obp0 := v }
  | .obp1 => { b with obp1 := v }
  | .wy   => { b with wy := v }
  | .wx   => { b with wx := v }

/-- `reg[NAME]` (R10). -/
def State.reg (s : State) (r : Reg) : Byte := s.regs.get r

/-- `reg[NAME] <- v` (R10): the raw store, without what a bus write does around it. -/
def State.setReg (s : State) (r : Reg) (v : Byte) : State := { s with regs := s.regs.set r v }

/-- LY as a number. -/
def State.line (s : State) : Nat := (s.reg .ly).toNat

/-- LCDC[7] = 1 (R101). -/
def State.lcdOn (s : State) : Bool := lcdEnable (s.reg .lcdc)

/-- The stored mode `mode_st` = STAT[1:0] (R34). -/
def State.modeSt (s : State) : Mode := statMode (s.reg .stat)

/-- The effective mode `mode_eff` (R35). -/
def State.modeEff (s : State) : Mode := effectiveMode (s.reg .lcdc) (s.reg .stat)

/-- `reg[STAT][1:0] <- m` (R107-R110). -/
def State.setMode (s : State) (m : Mode) : State := s.setReg .stat (statWithMode (s.reg .stat) m)

/-! ## Counters and FIFOs -/

/-- The dot counter moved. -/
def State.setDot (s : State) (d : Nat) : State := { s with dot := d }

/-- The cycle accumulator changed. -/
def State.setAcc (s : State) (a : Nat) : State := { s with acc := a }

/-- `clear(bg_fifo); clear(obj_fifo)` (R108). -/
def State.clearFifos (s : State) : State := { s with bgFifo := [], objFifo := [] }

/-! ## Events: the block's one way to request anything from outside (R44, R252)

The block takes no trap (R257); this is what stands in its place. -/

/-- Events appended to the trace, in order. -/
def State.emit (s : State) (es : List Event) : State := { s with trace := s.trace ++ es }

/-- An LCD_STAT request where its source is enabled, nothing where it is not (R254). -/
def lcdStatIf (enabled : Bool) : List Event := if enabled then [.interrupt .lcdStat] else []

/-! ## The raw buffers (R10: the ungated internal accesses) -/

/-- `VRAM[o]`. -/
def State.vramByte (s : State) (o : Nat) : Byte := s.vram.readByte o

/-- `OAM[o]`. -/
def State.oamByte (s : State) (o : Nat) : Byte := s.oam.readByte o

/-- VRAM replaced. -/
def State.setVram (s : State) (m : Memory) : State := { s with vram := m }

/-- OAM replaced. -/
def State.setOam (s : State) (m : Memory) : State := { s with oam := m }

/-- `FB[y][x]`. -/
def State.fbPixel (s : State) (y x : Nat) : Pixel := s.fb.pixel y x

/-- A whole row of FB written (R153). -/
def State.setFbRow (s : State) (y : Nat) (row : List Pixel) : State :=
  { s with fb := sparseWrite unlistedRow s.fb y row }

/-! ## The gated ports (R10, R221-R224): `MemRead` and `MemWrite` -/

/-- `MemRead(VRAM, o, 1)` (R221). -/
def State.memReadVram (s : State) (o : Nat) : Byte :=
  if vramOpen s.modeEff then s.vramByte o else Config.outOfGateRead

/-- `MemWrite(VRAM, o, 1, v)` (R222). -/
def State.memWriteVram (s : State) (o : Nat) (v : Byte) : State :=
  s.setVram (if vramOpen s.modeEff then s.vram.writeByte o v else s.vram)

/-- `MemRead(OAM, o, 1)` (R223). -/
def State.memReadOam (s : State) (o : Nat) : Byte :=
  if oamOpen s.modeEff then s.oamByte o else Config.outOfGateRead

/-- `MemWrite(OAM, o, 1, v)` (R224). -/
def State.memWriteOam (s : State) (o : Nat) (v : Byte) : State :=
  s.setOam (if oamOpen s.modeEff then s.oam.writeByte o v else s.oam)

/-! ## The DMA copy (R205) -/

/-- OAM after `DmaCopy(src)`: with `gated` every byte goes through the gate of mode `m`, without it every byte is
written. The gate cannot change during the copy, so it is asked once. -/
def dmaCopied (gated : Bool) (m : Mode) (oam : Memory) (src : DmaBlock) : Memory :=
  if oamOpen m || !gated then oam.writeBytes 0 src.toList else oam

/-- `DmaCopy(src)`, under the open parameter DMA_GATED (R205; log 6). -/
def State.dmaCopy (s : State) (src : DmaBlock) : State :=
  s.setOam (dmaCopied Config.dmaGated s.modeEff s.oam src)

/-! ## The host's side of a transaction -/

/-- The byte a RD returns to the host (R81). -/
def State.returnByte (s : State) (v : Byte) : State := { s with result := some v }

/-- The oldest transaction issued and not yet taken (R69). -/
def State.nextTxn (s : State) : Option Txn := s.pending.head?

/-- The state once the oldest transaction is taken: it is pending no more, and nothing has been returned yet. -/
def State.taken (s : State) : State := { s with pending := s.pending.tail, result := none }

/-- The state once the host has issued one more transaction, behind those already issued (R69). -/
def State.issue (s : State) (t : Txn) : State := { s with pending := s.pending ++ [t] }

end Sys2Proof.Machine
end

