-- ==== Sys2Proof/Machine/Operands.lean ====
section
/-! DEFINITION. The operand forms of the register transactions: what a RD of each register returns (spec/42_register_bank.md
R180-R192) and what a WR of each register stores (R193-R204), the side effects of DMA apart. -/

namespace Sys2Proof.Machine

/-- The byte a bus read of a register returns: the stored byte, but for STAT, whose mode bits read as the effective mode
(R182). -/
def State.busRead (s : State) (r : Reg) : Byte :=
  match r with
  | .stat => statReadValue (s.reg .lcdc) (s.reg .stat)
  | .lcdc | .scy | .scx | .ly | .lyc | .dma | .bgp | .obp0 | .obp1 | .wy | .wx => s.reg r

/-- What a bus write of `v` leaves in a register: `v`, but for STAT, which keeps its mode bits (R194), and LY, which
ignores all writes (R197). -/
def State.busStored (s : State) (r : Reg) (v : Byte) : Byte :=
  match r with
  | .stat => statAfterWrite v (s.reg .stat)
  | .ly => s.reg .ly
  | .lcdc | .scy | .scx | .lyc | .dma | .bgp | .obp0 | .obp1 | .wy | .wx => v

/-- A bus write to a register, without DMA's side effect. -/
def State.busWrite (s : State) (r : Reg) (v : Byte) : State := s.setReg r (s.busStored r v)

end Sys2Proof.Machine
end

