-- ==== Sys2Proof/Machine/Render.lean ====
section
/-! DEFINITION. The scanline renderer (spec/41_scanline_renderer.md R140-R159). A pixel is a function of the register bank
and of VRAM alone, read once, at the mode-3 entry that calls the renderer (R155), and VRAM is read directly, not through
the port (R154). Sprite composition is empty (R156). Tile and map layout: the spec's general-knowledge facts G3-G6 (log
17). -/

namespace Sys2Proof.Machine

/-! ## Layer, map and tile-data selection -/

/-- R141: the window is active on line `ly`. -/
def windowActive (r : RegBank) (ly : Nat) : Bool := winEnable r.lcdc && decide (r.wy.toNat ≤ ly)

/-- R144: pixel `px` of line `ly` is a window pixel (D10; log 16). -/
def isWindowPixel (r : RegBank) (ly px : Nat) : Bool := windowActive r ly && decide (r.wx.toNat ≤ px + 7)

/-- R143: a tile map's bus address, from its LCDC bit. -/
def mapBase (bit : Bool) : Nat := if bit then 0x9C00 else 0x9800

/-- The tile map of a pixel's layer (R143, R144). -/
def pixelMap (r : RegBank) (ly px : Nat) : Nat :=
  if isWindowPixel r ly px then mapBase (winMapBit r.lcdc) else mapBase (bgMapBit r.lcdc)

/-! ## Coordinates -/

/-- The column of a pixel in its layer: R146 for the window, R145 for the background (D10, D11; log 16). -/
def pixelX (r : RegBank) (ly px : Nat) : Nat :=
  if isWindowPixel r ly px then px + 7 - r.wx.toNat else (px + r.scx.toNat) % 256

/-- The row of a pixel in its layer: R146 for the window, R145 for the background. -/
def pixelY (r : RegBank) (ly px : Nat) : Nat :=
  if isWindowPixel r ly px then ly - r.wy.toNat else (ly + r.scy.toNat) % 256

/-! ## Tile fetch -/

/-- R147: the VRAM offset of the tile index at layer coordinates (x, y) of a map. -/
def mapOffset (map x y : Nat) : Nat := map - 0x8000 + 32 * (y / 8) + x / 8

/-- R148: the bus address of a tile's data. -/
def tileAddr (signedIdx : Bool) (idx : Byte) : Int :=
  if signedIdx then 0x9000 + 16 * idx.toInt else 0x8000 + 16 * (idx.toNat : Int)

/-- R149: the VRAM offset of the low bit-plane of row `y & 7` of a tile; the high one is the next byte. -/
def rowOffset (signedIdx : Bool) (idx : Byte) (y : Nat) : Nat :=
  (tileAddr signedIdx idx - 0x8000).toNat + 2 * (y % 8)

/-- R150: `{hi[7 - (x & 7)], lo[7 - (x & 7)]}`. -/
def colorIndex (lo hi : Byte) (x : Nat) : BitVec 2 :=
  BitVec.ofBool (hi.getLsbD (7 - x % 8)) ++ BitVec.ofBool (lo.getLsbD (7 - x % 8))

/-! ## Palette and output -/

/-- R151: `BGP[2*ci+1 : 2*ci]`. -/
def shade (bgp : Byte) (ci : BitVec 2) : BitVec 2 := bgp.extractLsb' (2 * ci.toNat) 2

/-- R152: GRAY = [0xFF, 0xAA, 0x55, 0x00]. -/
def gray (sh : BitVec 2) : Byte :=
  if sh = 0 then 0xFF else if sh = 1 then 0xAA else if sh = 2 then 0x55 else 0x00

/-- R152, R153: the entry of a shade, opaque (D13; log 18). -/
def grayPixel (sh : BitVec 2) : Pixel := { r := gray sh, g := gray sh, b := gray sh, a := 0xFF }

/-! ## RenderLine -/

/-- The tile index of a pixel (R147). -/
def pixelTile (r : RegBank) (vram : Memory) (ly px : Nat) : Byte :=
  vram.readByte (mapOffset (pixelMap r ly px) (pixelX r ly px) (pixelY r ly px))

/-- The VRAM offset of a pixel's low bit-plane (R142, R148, R149). -/
def pixelRow (r : RegBank) (vram : Memory) (ly px : Nat) : Nat :=
  rowOffset (!tileDataBit r.lcdc) (pixelTile r vram ly px) (pixelY r ly px)

/-- The color index of a pixel (R149, R150). -/
def pixelColor (r : RegBank) (vram : Memory) (ly px : Nat) : BitVec 2 :=
  colorIndex (vram.readByte (pixelRow r vram ly px)) (vram.readByte (pixelRow r vram ly px + 1)) (pixelX r ly px)

/-- The entry the renderer writes for pixel `px` of line `ly` (R140). -/
def renderPixel (r : RegBank) (vram : Memory) (ly px : Nat) : Pixel :=
  grayPixel (shade r.bgp (pixelColor r vram ly px))

/-- The 160 entries of a line. -/
def renderRow (r : RegBank) (vram : Memory) (ly : Nat) : List Pixel :=
  (List.range Config.screenW).map (renderPixel r vram ly)

/-- `RenderLine(ly)` (R140): all 160 entries of row `ly`, and nothing else (R153). -/
def State.renderLine (s : State) (ly : Nat) : State := s.setFbRow ly (renderRow s.regs s.vram ly)

end Sys2Proof.Machine
end

