-- ==== Sys2Proof/Machine/Advance.lean ====
section
/-! DEFINITION. ADVANCE: the LY/LYC comparator, the fixed-step loop, the dot step and the four mode entries with their
interrupt triggers (spec/40_mode_state_machine.md R100-R119). -/

namespace Sys2Proof.Machine

/-- LycCheck (R102): STAT[2] becomes LY = LYC, and an equality with LYC_IE set requests LCD_STAT. -/
def State.lycCheck (s : State) : State :=
  (s.setReg .stat (statWithCoincidence (s.reg .stat) (s.reg .ly == s.reg .lyc))).emit
    (lcdStatIf (s.reg .ly == s.reg .lyc && lycIrqEnable (s.reg .stat)))

/-- The mode target function (R105; line 153 is V-Blank, 90_conflicts.md C1). -/
def target (ly d : Nat) : Mode :=
  if Config.vblankFirstLine ≤ ly then .vblank
  else if d < Config.mode2End then .oamScan
  else if d < Config.mode3End then .drawing
  else .hblank

/-- The dot counter after one step: 4 more, and 0 at the end of the line (R104, R111). -/
def nextDot (d : Nat) : Nat :=
  if Config.dotsPerLine ≤ d + Config.dotsPerStep then 0 else d + Config.dotsPerStep

/-- LY after one step from dot counter `d`: the same but at the end of the line, where it goes one up, and from line 153
on to 0 (R104, R111, R112; for 154..255 the spec's own decision D16). -/
def nextLy (d : Nat) (ly : Byte) : Byte :=
  if Config.dotsPerLine ≤ d + Config.dotsPerStep then (if Config.lastLine ≤ ly.toNat then 0 else ly + 1) else ly

/-- The move of the position (LY, dot) in a dot step (R104, first half). -/
def State.tick (s : State) : State := (s.setReg .ly (nextLy s.dot (s.reg .ly))).setDot (nextDot s.dot)

/-- EnterMode (R107-R110). The events of mode 1 come in the order VBLANK, LCD_STAT, Notify (R110, R256, D8; log 15), and
VBLANK has no enable in the block (D7; log 15). -/
def State.enterMode (s : State) (m : Mode) : State :=
  match m with
  | .oamScan => (s.setMode .oamScan).emit (lcdStatIf (oamScanIrqEnable (s.reg .stat)))
  | .drawing => (s.setMode .drawing).clearFifos.renderLine s.line
  | .hblank  => (s.setMode .hblank).emit (lcdStatIf (hblankIrqEnable (s.reg .stat)))
  | .vblank  =>
    (s.setMode .vblank).emit
      (Event.interrupt .vblank :: (lcdStatIf (vblankIrqEnable (s.reg .stat)) ++ [Event.notifyVblankEntry]))

/-- The second half of a dot step: a mode is entered exactly when the target differs from the stored mode (R104, R106). -/
def State.settle (s : State) : State :=
  if target s.line s.dot = s.modeSt then s else s.enterMode (target s.line s.dot)

/-- DotStep (R104). -/
def State.dotStep (s : State) : State := s.tick.settle

/-- The fixed-step loop, `while acc >= 4: acc <- acc - 4; DotStep()` (R100, R103), at most `fuel` times round. -/
def State.runDots : Nat → State → State
  | 0, s => s
  | fuel + 1, s =>
    if Config.dotsPerStep ≤ s.acc then
      State.runDots fuel (s.setAcc (s.acc - Config.dotsPerStep)).dotStep
    else s

/-- ADVANCE(cycles) (R100): inert with the LCD off (R101; the cycles are discarded, D4; log 14), else LycCheck once,
then the cycles into the accumulator and out of it in steps of 4. The accumulator's quarter is as often as the loop can
go round. -/
def State.advance (s : State) (cycles : Nat) : State :=
  if s.lcdOn then State.runDots ((s.acc + cycles) / Config.dotsPerStep) (s.lycCheck.setAcc (s.acc + cycles))
  else s

/-- ADVANCE (R100). -/
def execAdvance (cycles : Nat) (s : State) : Host.Outcome State Fault Refusal := .next (s.advance cycles)

end Sys2Proof.Machine
end

