-- ==== Sys2Proof/Machine/Ports.lean ====
section
/-! DEFINITION. The gated port transactions (spec/43_vram_oam_gate.md R220-R227). -/

namespace Sys2Proof.Machine

/-- RD_VRAM (R221). -/
def execRdVram (offset : Fin 8192) (s : State) : Host.Outcome State Fault Refusal :=
  .next (s.returnByte (s.memReadVram offset.val))

/-- WR_VRAM (R222). -/
def execWrVram (offset : Fin 8192) (data : Byte) (s : State) : Host.Outcome State Fault Refusal :=
  .next (s.memWriteVram offset.val data)

/-- RD_OAM (R223). -/
def execRdOam (offset : Fin 160) (s : State) : Host.Outcome State Fault Refusal :=
  .next (s.returnByte (s.memReadOam offset.val))

/-- WR_OAM (R224). -/
def execWrOam (offset : Fin 160) (data : Byte) (s : State) : Host.Outcome State Fault Refusal :=
  .next (s.memWriteOam offset.val data)

end Sys2Proof.Machine
end

