-- ==== Sys2Proof/Machine/RegRead.lean ====
section
/-! DEFINITION. The register read transactions (spec/42_register_bank.md R180-R192): each returns one byte and writes
nothing. -/

namespace Sys2Proof.Machine

/-- RD_LCDC (R181). -/
def execRdLcdc (s : State) : Host.Outcome State Fault Refusal := .next (s.returnByte (s.busRead .lcdc))

/-- RD_STAT (R182): the stored bits 7:2 and the effective mode (log 14). -/
def execRdStat (s : State) : Host.Outcome State Fault Refusal := .next (s.returnByte (s.busRead .stat))

/-- RD_SCY (R183). -/
def execRdScy (s : State) : Host.Outcome State Fault Refusal := .next (s.returnByte (s.busRead .scy))

/-- RD_SCX (R184). -/
def execRdScx (s : State) : Host.Outcome State Fault Refusal := .next (s.returnByte (s.busRead .scx))

/-- RD_LY (R185). -/
def execRdLy (s : State) : Host.Outcome State Fault Refusal := .next (s.returnByte (s.busRead .ly))

/-- RD_LYC (R186). -/
def execRdLyc (s : State) : Host.Outcome State Fault Refusal := .next (s.returnByte (s.busRead .lyc))

/-- RD_DMA (R187); a read starts no transfer. -/
def execRdDma (s : State) : Host.Outcome State Fault Refusal := .next (s.returnByte (s.busRead .dma))

/-- RD_BGP (R188). -/
def execRdBgp (s : State) : Host.Outcome State Fault Refusal := .next (s.returnByte (s.busRead .bgp))

/-- RD_OBP0 (R189). -/
def execRdObp0 (s : State) : Host.Outcome State Fault Refusal := .next (s.returnByte (s.busRead .obp0))

/-- RD_OBP1 (R190). -/
def execRdObp1 (s : State) : Host.Outcome State Fault Refusal := .next (s.returnByte (s.busRead .obp1))

/-- RD_WY (R191). -/
def execRdWy (s : State) : Host.Outcome State Fault Refusal := .next (s.returnByte (s.busRead .wy))

/-- RD_WX (R192). -/
def execRdWx (s : State) : Host.Outcome State Fault Refusal := .next (s.returnByte (s.busRead .wx))

end Sys2Proof.Machine
end

