-- ==== Sys2Proof/Machine/RegWrite.lean ====
section
/-! DEFINITION. The register write transactions (spec/42_register_bank.md R193-R205). A write returns nothing (R82). -/

namespace Sys2Proof.Machine

/-- WR_LCDC (R193). -/
def execWrLcdc (data : Byte) (s : State) : Host.Outcome State Fault Refusal := .next (s.busWrite .lcdc data)

/-- WR_STAT (R194): bits 7:2 are stored, the mode bits kept; no request is made. -/
def execWrStat (data : Byte) (s : State) : Host.Outcome State Fault Refusal := .next (s.busWrite .stat data)

/-- WR_SCY (R195). -/
def execWrScy (data : Byte) (s : State) : Host.Outcome State Fault Refusal := .next (s.busWrite .scy data)

/-- WR_SCX (R196). -/
def execWrScx (data : Byte) (s : State) : Host.Outcome State Fault Refusal := .next (s.busWrite .scx data)

/-- WR_LY (R197): "LY ignores all writes". -/
def execWrLy (_data : Byte) (s : State) : Host.Outcome State Fault Refusal := .next s

/-- WR_LYC (R198). -/
def execWrLyc (data : Byte) (s : State) : Host.Outcome State Fault Refusal := .next (s.busWrite .lyc data)

/-- WR_DMA (R199): the byte is stored, the request emitted, and the 160 bytes copied into OAM (R205). -/
def execWrDma (data : Byte) (src : DmaBlock) (s : State) : Host.Outcome State Fault Refusal :=
  .next (((s.busWrite .dma data).emit [.dmaRequest data]).dmaCopy src)

/-- WR_BGP (R200). -/
def execWrBgp (data : Byte) (s : State) : Host.Outcome State Fault Refusal := .next (s.busWrite .bgp data)

/-- WR_OBP0 (R201). -/
def execWrObp0 (data : Byte) (s : State) : Host.Outcome State Fault Refusal := .next (s.busWrite .obp0 data)

/-- WR_OBP1 (R202). -/
def execWrObp1 (data : Byte) (s : State) : Host.Outcome State Fault Refusal := .next (s.busWrite .obp1 data)

/-- WR_WY (R203). -/
def execWrWy (data : Byte) (s : State) : Host.Outcome State Fault Refusal := .next (s.busWrite .wy data)

/-- WR_WX (R204). -/
def execWrWx (data : Byte) (s : State) : Host.Outcome State Fault Refusal := .next (s.busWrite .wx data)

end Sys2Proof.Machine
end

