-- ==== Sys2Proof/Machine/Dispatch.lean ====
section
/-! DEFINITION. One arm per transaction of spec/opcode_table.json. -/

namespace Sys2Proof.Machine

def exec (i : Instr) (s : State) : Host.Outcome State Fault Refusal :=
  match i with
  | .rdLcdc => Sys2Proof.Machine.execRdLcdc s
  | .rdStat => Sys2Proof.Machine.execRdStat s
  | .rdScy => Sys2Proof.Machine.execRdScy s
  | .rdScx => Sys2Proof.Machine.execRdScx s
  | .rdLy => Sys2Proof.Machine.execRdLy s
  | .rdLyc => Sys2Proof.Machine.execRdLyc s
  | .rdDma => Sys2Proof.Machine.execRdDma s
  | .rdBgp => Sys2Proof.Machine.execRdBgp s
  | .rdObp0 => Sys2Proof.Machine.execRdObp0 s
  | .rdObp1 => Sys2Proof.Machine.execRdObp1 s
  | .rdWy => Sys2Proof.Machine.execRdWy s
  | .rdWx => Sys2Proof.Machine.execRdWx s
  | .wrLcdc data => Sys2Proof.Machine.execWrLcdc data s
  | .wrStat data => Sys2Proof.Machine.execWrStat data s
  | .wrScy data => Sys2Proof.Machine.execWrScy data s
  | .wrScx data => Sys2Proof.Machine.execWrScx data s
  | .wrLy data => Sys2Proof.Machine.execWrLy data s
  | .wrLyc data => Sys2Proof.Machine.execWrLyc data s
  | .wrDma data src => Sys2Proof.Machine.execWrDma data src s
  | .wrBgp data => Sys2Proof.Machine.execWrBgp data s
  | .wrObp0 data => Sys2Proof.Machine.execWrObp0 data s
  | .wrObp1 data => Sys2Proof.Machine.execWrObp1 data s
  | .wrWy data => Sys2Proof.Machine.execWrWy data s
  | .wrWx data => Sys2Proof.Machine.execWrWx data s
  | .rdVram offset => Sys2Proof.Machine.execRdVram offset s
  | .wrVram offset data => Sys2Proof.Machine.execWrVram offset data s
  | .rdOam offset => Sys2Proof.Machine.execRdOam offset s
  | .wrOam offset data => Sys2Proof.Machine.execWrOam offset data s
  | .advance cycles => Sys2Proof.Machine.execAdvance cycles s

end Sys2Proof.Machine
end

