-- ==== Sys2Proof/Machine/Step.lean ====
section
/-! DEFINITION. One step: the oldest pending transaction is taken, decoded and run, or refused. -/

namespace Sys2Proof.Machine

/-- One step. The block fetches nothing (R39): it takes the oldest transaction the host has issued (R69), whole and at
once (R67); a word matched by no row is refused and ends the run (R87, R251). With nothing pending nothing happens: the
block acts only inside a transaction (DESIGN CHOICE, safe; log 2). -/
def step (s : State) : Host.Outcome State Fault Refusal :=
  match s.nextTxn with
  | none => .next s
  | some t =>
    match decode t with
    | .instr i => exec i s.taken
    | .refused r => .refused (.contractViolation r)

/-- `s` with a table word issued ahead of everything pending, so that the very next step runs it: bits of the word above
`nbits` and the whole side input are zero (log 1, log 4). -/
def State.withFetchWord (s : State) (nbits w : Nat) : State :=
  { s with pending := { word := BitVec.ofNat 32 (w % 2 ^ nbits), src := zeroBlock } :: s.pending }

end Sys2Proof.Machine
end

