-- ==== Sys2Proof/Safety.lean ====
section
/-! DEFINITION. What holds of a state in a safe run: the reachable-state invariant of spec/10_state.md R46 and the
canonical form of the buffers. -/

namespace Sys2Proof.Machine

/-- The state facts of R46 that hold of every reachable state, with the canonical form of VRAM, OAM and FB. -/
structure State.Inv (s : State) : Prop where
  dot_step : s.dot % 4 = 0
  dot_le : s.dot ≤ 452
  line_le : s.line ≤ 153
  acc_le : s.acc ≤ 3
  vram_wf : s.vram.wf Config.vramSize = true
  oam_wf : s.oam.wf Config.oamSize = true
  fb_wf : s.fb.wf = true

/-- The last clause of R46: the stored mode is the one of the position, `mode_st = target(LY, dot)`. -/
def State.Synced (s : State) : Prop := s.modeSt = target s.line s.dot

/-- A draw that R280 admits: LY ≤ 153 (R47), and buffers in canonical form. -/
structure ResetDraw.Fits (d : ResetDraw) : Prop where
  line_le : d.regs.ly.toNat ≤ 153
  vram_wf : d.vram.wf Config.vramSize = true
  oam_wf : d.oam.wf Config.oamSize = true
  fb_wf : d.fb.wf = true

/-- Whether a transaction runs at least one dot step from `s` (R100, R103). -/
def State.stepsDots (s : State) : Instr → Bool
  | .advance cycles => s.lcdOn && decide (4 ≤ s.acc + cycles)
  | _ => false

/-- Whether a transaction enables the LCD: it writes 1 to LCDC[7] where that is 0 (R119). -/
def State.enablesLcd (s : State) : Instr → Bool
  | .wrLcdc data => !s.lcdOn && lcdEnable data
  | _ => false

/-- The states reached from a reset by transactions, and whether a dot step has run since the LCD was last enabled or
reset (what the last clause of R46 asks). -/
inductive Reached : Bool → State → Prop where
  | reset (d : ResetDraw) (h : d.Fits) : Reached false (State.resetWith d)
  | txn {b : Bool} {s t : State} (i : Instr) (h : Reached b s) (e : exec i s = .next t) :
      Reached (if s.enablesLcd i then false else b || s.stepsDots i) t

end Sys2Proof.Machine
end

