-- ==== Sys2Proof/Certificates/Slice0/Obligations.lean ====
section
/-! DEFINITION. The statements for the provers. They come from the numbered rules of spec/; a clause that rests on one of
the spec's own decisions (spec/92_eei_decisions.md D<n>), on general knowledge (spec/93_implementation_defined.md G<n>) or
on a choice of this model (a log entry) says so in its docstring. -/

open Sys2Proof Sys2Proof.Machine

/-! ## Encoding and the step -/

/-- The decode vectors of 95_test_vectors.md 2.6, whatever the side input. OAM words: OAM_BASE is 0xFE00 (log 5). -/
def Obligations.TableWordsDecodeAsTheSpecSays : Prop :=
  ∀ src : DmaBlock,
    decode ⟨0x0000FF44, src⟩ = .instr .rdLy ∧
    decode ⟨0x4091FF40, src⟩ = .instr (.wrLcdc 0x91) ∧
    decode ⟨0x4000FF46, src⟩ = .instr (.wrDma 0x00 src) ∧
    decode ⟨0x00009FFF, src⟩ = .instr (.rdVram 0x1FFF) ∧
    decode ⟨0x40AB8000, src⟩ = .instr (.wrVram 0 0xAB) ∧
    decode ⟨0x0000FE9F, src⟩ = .instr (.rdOam 159) ∧
    decode ⟨0x800001C8, src⟩ = .instr (.advance 456) ∧
    decode ⟨0x80011250, src⟩ = .instr (.advance 70224) ∧
    decode ⟨0xC0000000, src⟩ = .refused .reservedClass ∧
    decode ⟨0x0100FF40, src⟩ = .refused .reservedBits ∧
    decode ⟨0x0012FF40, src⟩ = .refused .reservedBits ∧
    decode ⟨0x0000FF4C, src⟩ = .refused .unmappedAddress ∧
    decode ⟨0x0000FEA0, src⟩ = .refused .unmappedAddress

/-- R80-R85: a word carries every transaction it can carry, and decoding gives it back with every operand, for every
OAM_BASE that leaves VRAM and the registers alone (the default among them: log 5). -/
def Obligations.DecodeOfEncodeIsTheTransaction : Prop :=
  (∀ (base : Addr) (i : Instr), oamBaseFits base = true → i.wellFormed = true →
    decodeAt base (encodeAt base i) = .instr i) ∧
  (∀ i : Instr, i.wellFormed = true → decode (encode i) = .instr i)

/-- R80-R88: each word has one meaning: what decodes is well formed, encodes to the very word it came from, and carries
the side input of the transaction where it is a DMA write. -/
def Obligations.EncodeOfDecodeIsTheWord : Prop :=
  ∀ (base : Addr) (t : Txn) (i : Instr), oamBaseFits base = true → decodeAt base t = .instr i →
    i.wellFormed = true ∧ (encodeAt base i).word = t.word ∧ (∀ data src, i = .wrDma data src → src = t.src)

/-- R87 word by word: the words that decode are the advance words, and the RD and WR words with Z6 = 0, DATA = 0 in a RD,
and an address of R85 (OAM at 0xFE00: log 5). The reserved bits are the spec's own encoding (D2, D17). -/
def Obligations.AcceptedWordsAreTheTable : Prop :=
  ∀ (cls : BitVec 2) (z6 : BitVec 6) (data : BitVec 8) (addr : BitVec 16) (src : DmaBlock),
    (∃ i, decode ⟨cls ++ z6 ++ data ++ addr, src⟩ = .instr i) ↔
      (cls = 2 ∨
        ((cls = 0 ∧ data = 0 ∨ cls = 1) ∧ z6 = 0 ∧
          (0x8000 ≤ addr.toNat ∧ addr.toNat ≤ 0x9FFF ∨ 0xFE00 ≤ addr.toNat ∧ addr.toNat ≤ 0xFE9F ∨
            0xFF40 ≤ addr.toNat ∧ addr.toNat ≤ 0xFF4B)))

/-- R251 with R87 (the spec's own decision D17): a word that breaks the contract is refused with its reason, and so is
every run from there. Where several conditions hold, the first of R87 gives the reason (log 12). The unmapped ranges on
both sides of OAM take OAM_BASE to be 0xFE00 (log 5). -/
def Obligations.ContractViolationsAreRefused : Prop :=
  ∀ (s : State) (cls : BitVec 2) (z6 : BitVec 6) (data : BitVec 8) (addr : BitVec 16) (src : DmaBlock)
    (rest : List Txn) (r : ContractReason),
    s.pending = ⟨cls ++ z6 ++ data ++ addr, src⟩ :: rest →
    ((cls = 3 ∧ r = .reservedClass) ∨
      (cls.toNat < 2 ∧ z6 ≠ 0 ∧ r = .reservedBits) ∨
      (cls = 0 ∧ z6 = 0 ∧ data ≠ 0 ∧ r = .reservedBits) ∨
      (cls.toNat < 2 ∧ z6 = 0 ∧ (cls = 0 → data = 0) ∧
        (addr.toNat < 0x8000 ∨ 0xA000 ≤ addr.toNat ∧ addr.toNat < 0xFE00 ∨
          0xFEA0 ≤ addr.toNat ∧ addr.toNat < 0xFF40 ∨ 0xFF4C ≤ addr.toNat) ∧ r = .unmappedAddress)) →
    step s = .refused (.contractViolation r) ∧
      ∀ k, Host.Core.run Sys2Proof.core (k + 1) s = .refused (.contractViolation r)

/-- A step takes the oldest pending transaction and runs what it decodes to (R69; logs 1 and 3 for the two fields of the
model's own). -/
def Obligations.StepRunsTheDecodedTransaction : Prop :=
  ∀ (s : State) (t : Txn) (rest : List Txn) (i : Instr),
    s.pending = t :: rest → decode t = .instr i →
    step s = exec i { s with pending := rest, result := none }

/-- With nothing pending a step does nothing (log 2, the model's choice: R39 and R67 give the block no step of its own). -/
def Obligations.StepWithNothingPendingIdles : Prop :=
  ∀ s : State, s.pending = [] → step s = .next s

/-! ## Reset -/

/-- R47, R280: what reset leaves, for any draw, and the default registers (general knowledge G9: log 7). OBP0, OBP1 and
the buffers of `State.reset` are the model's choice and not stated here (logs 8, 9, 10). -/
def Obligations.ResetLeavesTheSpecsValues : Prop :=
  (∀ d : ResetDraw,
    (State.resetWith d).regs = d.regs ∧ (State.resetWith d).vram = d.vram ∧ (State.resetWith d).oam = d.oam ∧
    (State.resetWith d).fb = d.fb ∧ (State.resetWith d).dot = 0 ∧ (State.resetWith d).acc = 0 ∧
    (State.resetWith d).bgFifo = [] ∧ (State.resetWith d).objFifo = [] ∧ (State.resetWith d).trace = []) ∧
  State.reset.regs.lcdc = 0x91 ∧ State.reset.regs.stat = 0x85 ∧ State.reset.regs.scy = 0x00 ∧
  State.reset.regs.scx = 0x00 ∧ State.reset.regs.ly = 0x00 ∧ State.reset.regs.lyc = 0x00 ∧
  State.reset.regs.dma = 0xFF ∧ State.reset.regs.bgp = 0xFC ∧ State.reset.regs.wy = 0x00 ∧
  State.reset.regs.wx = 0x00 ∧ State.reset.dot = 0 ∧ State.reset.acc = 0 ∧ State.reset.trace = []

/-- R46 at reset, for every draw with LY ≤ 153 (R47) and canonical buffers, and for the model's own reset state. -/
def Obligations.ResetMeetsTheInvariant : Prop :=
  (∀ d : ResetDraw, d.Fits → (State.resetWith d).Inv) ∧ State.reset.Inv

/-- R281: the first 4 dots after a reset with the default registers enter mode 2 from mode 1 without a request, and 80
dots render line 0, whatever OBP0, OBP1 and the buffers hold. The values rest on G9 (log 7). -/
def Obligations.FirstDotsAfterReset : Prop :=
  ∀ (obp0 obp1 : Byte) (vram oam : Memory) (fb : FrameBuffer),
    ∃ t u : State,
      exec (.advance 4) (State.resetWith ⟨{ State.reset.regs with obp0 := obp0, obp1 := obp1 }, vram, oam, fb⟩) =
        .next t ∧
      t.dot = 4 ∧ t.regs.ly = 0 ∧ t.regs.stat = 0x86 ∧ t.trace = [] ∧ t.fb = fb ∧
      exec (.advance 76) t = .next u ∧
      u.dot = 80 ∧ u.regs.stat = 0x87 ∧ u.trace = [] ∧
      ∀ y x, y < 144 → x < 160 →
        u.fbPixel y x = if y = 0 then renderPixel t.regs vram 0 x else fb.pixel y x

/-! ## Register reads -/

/-- R181, R183, R184, R186, R188, R191, R192: the encoding of each read, the stored byte as its result with nothing else
changed, and the read back of a written byte. -/
def Obligations.RegisterReadsReturnTheStoredByte : Prop :=
  ∀ (s : State) (v : Byte) (src : DmaBlock),
    (decode ⟨0x0000FF40, src⟩ = .instr .rdLcdc ∧ exec .rdLcdc s = .next { s with result := some s.regs.lcdc } ∧
      ∃ t, exec (.wrLcdc v) s = .next t ∧ exec .rdLcdc t = .next { t with result := some v }) ∧
    (decode ⟨0x0000FF42, src⟩ = .instr .rdScy ∧ exec .rdScy s = .next { s with result := some s.regs.scy } ∧
      ∃ t, exec (.wrScy v) s = .next t ∧ exec .rdScy t = .next { t with result := some v }) ∧
    (decode ⟨0x0000FF43, src⟩ = .instr .rdScx ∧ exec .rdScx s = .next { s with result := some s.regs.scx } ∧
      ∃ t, exec (.wrScx v) s = .next t ∧ exec .rdScx t = .next { t with result := some v }) ∧
    (decode ⟨0x0000FF45, src⟩ = .instr .rdLyc ∧ exec .rdLyc s = .next { s with result := some s.regs.lyc } ∧
      ∃ t, exec (.wrLyc v) s = .next t ∧ exec .rdLyc t = .next { t with result := some v }) ∧
    (decode ⟨0x0000FF47, src⟩ = .instr .rdBgp ∧ exec .rdBgp s = .next { s with result := some s.regs.bgp } ∧
      ∃ t, exec (.wrBgp v) s = .next t ∧ exec .rdBgp t = .next { t with result := some v }) ∧
    (decode ⟨0x0000FF4A, src⟩ = .instr .rdWy ∧ exec .rdWy s = .next { s with result := some s.regs.wy } ∧
      ∃ t, exec (.wrWy v) s = .next t ∧ exec .rdWy t = .next { t with result := some v }) ∧
    (decode ⟨0x0000FF4B, src⟩ = .instr .rdWx ∧ exec .rdWx s = .next { s with result := some s.regs.wx } ∧
      ∃ t, exec (.wrWx v) s = .next t ∧ exec .rdWx t = .next { t with result := some v })

/-- The other four plain reads: LY, DMA (which starts no transfer; the spec's decision D15), OBP0 and OBP1. -/
def Obligations.LyDmaAndObjectPaletteReads : Prop :=
  ∀ s : State,
    exec .rdLy s = .next { s with result := some s.regs.ly } ∧
    exec .rdDma s = .next { s with result := some s.regs.dma } ∧
    exec .rdObp0 s = .next { s with result := some s.regs.obp0 } ∧
    exec .rdObp1 s = .next { s with result := some s.regs.obp1 }

/-- R182 with R35 (the spec's decision D5: log 14): bits 7:2 as stored, bits 1:0 the stored mode with the LCD on and 0
with it off; the stored mode is kept. -/
def Obligations.StatReadReturnsTheEffectiveMode : Prop :=
  ∀ s : State, ∃ b : Byte,
    exec .rdStat s = .next { s with result := some b } ∧
    (∀ i, 2 ≤ i → b.getLsbD i = s.regs.stat.getLsbD i) ∧
    (∀ i, i < 2 → b.getLsbD i = (s.regs.lcdc.getLsbD 7 && s.regs.stat.getLsbD i))

/-! ## Register writes -/

/-- The plain writes of 42_register_bank.md section 3: the byte is stored, and nothing else changes. -/
def Obligations.PlainRegisterWritesStoreTheByte : Prop :=
  ∀ (s : State) (v : Byte),
    exec (.wrLcdc v) s = .next { s with regs := { s.regs with lcdc := v } } ∧
    exec (.wrScy v) s = .next { s with regs := { s.regs with scy := v } } ∧
    exec (.wrScx v) s = .next { s with regs := { s.regs with scx := v } } ∧
    exec (.wrBgp v) s = .next { s with regs := { s.regs with bgp := v } } ∧
    exec (.wrObp0 v) s = .next { s with regs := { s.regs with obp0 := v } } ∧
    exec (.wrObp1 v) s = .next { s with regs := { s.regs with obp1 := v } } ∧
    exec (.wrWy v) s = .next { s with regs := { s.regs with wy := v } } ∧
    exec (.wrWx v) s = .next { s with regs := { s.regs with wx := v } }

/-- R198: WR_LYC stores the byte and compares nothing (STAT stands); the next ADVANCE with the LCD on compares, before
any dot: with 0 cycles and less than 4 in the accumulator STAT[2] becomes LY = LYC. -/
def Obligations.LycWriteComparesNothing : Prop :=
  ∀ (s : State) (v : Byte) (src : DmaBlock),
    decode ⟨(0x40 : BitVec 8) ++ v ++ (0xFF45 : BitVec 16), src⟩ = .instr (.wrLyc v) ∧
    exec (.wrLyc v) s = .next { s with regs := { s.regs with lyc := v } } ∧
    (s.regs.lcdc.getLsbD 7 = true → s.acc < 4 →
      ∃ t, exec (.advance 0) { s with regs := { s.regs with lyc := v } } = .next t ∧
        t.regs.stat.getLsbD 2 = decide (s.regs.ly = v))

/-- R194: WR_STAT stores bits 7:2 and keeps the stored mode, requests nothing, and the next LycCheck overwrites bit 2. -/
def Obligations.StatWriteKeepsTheModeBits : Prop :=
  ∀ (s : State) (v : Byte) (src : DmaBlock),
    decode ⟨(0x40 : BitVec 8) ++ v ++ (0xFF41 : BitVec 16), src⟩ = .instr (.wrStat v) ∧
    ∃ w : Byte,
      exec (.wrStat v) s = .next { s with regs := { s.regs with stat := w } } ∧
      (∀ i, 2 ≤ i → w.getLsbD i = v.getLsbD i) ∧ (∀ i, i < 2 → w.getLsbD i = s.regs.stat.getLsbD i) ∧
      (s.regs.lcdc.getLsbD 7 = true → s.acc < 4 →
        ∃ t, exec (.advance 0) { s with regs := { s.regs with stat := w } } = .next t ∧
          t.regs.stat.getLsbD 2 = decide (s.regs.ly = s.regs.lyc))

/-- R197: "LY ignores all writes": WR_LY changes nothing at all, and RD_LY then returns what it would have returned. -/
def Obligations.LyIgnoresAllWrites : Prop :=
  ∀ (s : State) (v : Byte) (src : DmaBlock),
    decode ⟨(0x40 : BitVec 8) ++ v ++ (0xFF44 : BitVec 16), src⟩ = .instr (.wrLy v) ∧
    exec (.wrLy v) s = .next s ∧ exec .rdLy s = .next { s with result := some s.regs.ly }

/-- R199, R205: WR_DMA stores the byte, emits one request with it, and copies the 160 bytes of its side input into OAM at
once; with DMA_GATED (open, D15: log 6) the copy is dropped while the LCD is on in mode 2 or 3. Every other byte of OAM
and every other part of the state is unchanged. -/
def Obligations.DmaWriteCopiesTheSideInput : Prop :=
  ∀ (s : State) (v : Byte) (src : DmaBlock), ∃ oam : Memory,
    exec (.wrDma v src) s =
      .next { s with regs := { s.regs with dma := v }, trace := s.trace ++ [.dmaRequest v], oam := oam } ∧
    (∀ i : Fin 160, oam.readByte i.val =
      if (Config.dmaGated && s.regs.lcdc.getLsbD 7 && s.regs.stat.getLsbD 1) = true then s.oamByte i.val
      else src[i]) ∧
    (∀ o, 160 ≤ o → oam.readByte o = s.oamByte o)

/-! ## The gated ports -/

/-- R35 and the gate table R226 (the LCD-off rows are the spec's decision D5: log 14): the effective mode is the stored
mode with the LCD on and mode 0 with it off; VRAM is open but in mode 3, OAM but in modes 2 and 3. -/
def Obligations.GateTable : Prop :=
  ∀ s : State,
    (s.regs.lcdc.getLsbD 7 = false → s.modeEff = .hblank) ∧
    (s.regs.lcdc.getLsbD 7 = true → (modeBits s.modeEff).toNat = s.regs.stat.toNat % 4) ∧
    vramOpen .hblank = true ∧ vramOpen .vblank = true ∧ vramOpen .oamScan = true ∧ vramOpen .drawing = false ∧
    oamOpen .hblank = true ∧ oamOpen .vblank = true ∧ oamOpen .oamScan = false ∧ oamOpen .drawing = false

/-- R221, R223: the encoding of each port read; it returns the byte where the gate is open and 0xFF where it is closed,
and writes nothing. -/
def Obligations.PortReadsPassTheGate : Prop :=
  ∀ (s : State) (src : DmaBlock),
    (∀ o : Fin 8192,
      decode ⟨(0 : BitVec 16) ++ BitVec.ofNat 16 (0x8000 + o.val), src⟩ = .instr (.rdVram o) ∧
      exec (.rdVram o) s = .next { s with result := some (if s.modeEff = .drawing then 0xFF else s.vramByte o.val) }) ∧
    (∀ o : Fin 160,
      decode ⟨(0 : BitVec 16) ++ BitVec.ofNat 16 (Config.oamBase.toNat + o.val), src⟩ = .instr (.rdOam o) ∧
      exec (.rdOam o) s =
        .next { s with result := some (if s.modeEff ∈ [.oamScan, .drawing] then 0xFF else s.oamByte o.val) })

/-- R222, R224: the encoding of each port write; it stores its byte where the gate is open, every other byte of the buffer
and every other part of the state unchanged; where the gate is closed it is dropped without a trace. -/
def Obligations.PortWritesPassTheGate : Prop :=
  ∀ (s : State) (v : Byte) (src : DmaBlock),
    (∀ o : Fin 8192,
      decode ⟨(0x40 : BitVec 8) ++ v ++ BitVec.ofNat 16 (0x8000 + o.val), src⟩ = .instr (.wrVram o v) ∧
      (s.modeEff = .drawing → exec (.wrVram o v) s = .next s) ∧
      (s.modeEff ≠ .drawing → ∃ m : Memory, exec (.wrVram o v) s = .next { s with vram := m } ∧
        ∀ q, m.readByte q = if q = o.val then v else s.vramByte q)) ∧
    (∀ o : Fin 160,
      decode ⟨(0x40 : BitVec 8) ++ v ++ BitVec.ofNat 16 (Config.oamBase.toNat + o.val), src⟩ =
        .instr (.wrOam o v) ∧
      (s.modeEff = .oamScan ∨ s.modeEff = .drawing → exec (.wrOam o v) s = .next s) ∧
      (s.modeEff ≠ .oamScan → s.modeEff ≠ .drawing → ∃ m : Memory, exec (.wrOam o v) s = .next { s with oam := m } ∧
        ∀ q, m.readByte q = if q = o.val then v else s.oamByte q))

/-! ## Rules over all transactions -/

/-- R26, R34, R37, R39, R43: no transaction but ADVANCE moves the position (LY, dot), the accumulator, the stored mode, the
FIFOs or the frame buffer. -/
def Obligations.OnlyAdvanceMovesTheSequencer : Prop :=
  ∀ (i : Instr) (s t : State), (∀ n, i ≠ .advance n) → exec i s = .next t →
    t.regs.ly = s.regs.ly ∧ t.dot = s.dot ∧ t.acc = s.acc ∧ t.regs.stat.toNat % 4 = s.regs.stat.toNat % 4 ∧
    t.bgFifo = s.bgFifo ∧ t.objFifo = s.objFifo ∧ t.fb = s.fb

/-- R66: a transaction other than ADVANCE and a DMA write is idempotent: given again, it changes nothing more. -/
def Obligations.AccessesAreIdempotent : Prop :=
  ∀ (i : Instr) (s t : State), (∀ n, i ≠ .advance n) → (∀ v src, i ≠ .wrDma v src) → exec i s = .next t →
    exec i t = .next t

/-- R44, R252, R253: the trace only grows, and only ADVANCE and a DMA write make it grow. -/
def Obligations.TraceOnlyGrows : Prop :=
  ∀ (i : Instr) (s t : State), exec i s = .next t →
    ∃ es : List Event, t.trace = s.trace ++ es ∧
      ((∀ n, i ≠ .advance n) → (∀ v src, i ≠ .wrDma v src) → es = []) ∧
      (∀ v src, i = .wrDma v src → es = [.dmaRequest v])

/-- No transaction is refused or faults: every one of the 29 completes in every state (R250: "total functions"). -/
def Obligations.EveryTransactionCompletes : Prop :=
  ∀ (i : Instr) (s : State), ∃ t, exec i s = .next t ∧ t.pending = s.pending

/-- R118: the state machine writes no register but LY and STAT bits 2:0. -/
def Obligations.StateMachineWritesOnlyLyAndStatLowBits : Prop :=
  ∀ (s : State) (n : Nat), ∃ t, exec (.advance n) s = .next t ∧
    t.regs.lcdc = s.regs.lcdc ∧ t.regs.scy = s.regs.scy ∧ t.regs.scx = s.regs.scx ∧ t.regs.lyc = s.regs.lyc ∧
    t.regs.dma = s.regs.dma ∧ t.regs.bgp = s.regs.bgp ∧ t.regs.obp0 = s.regs.obp0 ∧ t.regs.obp1 = s.regs.obp1 ∧
    t.regs.wy = s.regs.wy ∧ t.regs.wx = s.regs.wx ∧ ∀ i, 3 ≤ i → t.regs.stat.getLsbD i = s.regs.stat.getLsbD i

/-- ADVANCE writes neither VRAM nor OAM, returns nothing and leaves the host's queue alone (R82 for the kind of answer;
R100 lists the state it writes); every byte reads as before. -/
def Obligations.AdvanceLeavesTheBuffersAlone : Prop :=
  ∀ (s : State) (n : Nat), ∃ t, exec (.advance n) s = .next t ∧
    (∀ o, t.vramByte o = s.vramByte o) ∧ (∀ o, t.oamByte o = s.oamByte o) ∧
    t.vram = s.vram ∧ t.oam = s.oam ∧ t.result = s.result ∧ t.pending = s.pending

/-! ## ADVANCE -/

/-- R101, R290 (that the check does not run and the cycles are lost is the spec's decision D4: log 14): with the LCD off
ADVANCE changes nothing. -/
def Obligations.AdvanceIsInertWithTheLcdOff : Prop :=
  ∀ (s : State) (n : Nat), s.regs.lcdc.getLsbD 7 = false → exec (.advance n) s = .next s

/-- R119, R264 (the spec's decision D6: log 14): switching the LCD off, advancing and switching it on again leaves the
block exactly where it was. -/
def Obligations.LcdOffAndOnResumes : Prop :=
  ∀ (s : State) (off : Byte) (n : Nat), off.getLsbD 7 = false →
    ∃ t, exec (.wrLcdc off) s = .next t ∧ exec (.advance n) t = .next t ∧ exec (.wrLcdc s.regs.lcdc) t = .next s

/-- R100, R103 (the remainder is carried by the spec's decision D3: log 14): with the LCD on, ADVANCE is the comparator
once, then one dot step for every whole 4 cycles, the rest left in the accumulator. -/
def Obligations.AdvanceIsTheCheckThenTheDotSteps : Prop :=
  ∀ (s : State) (n : Nat), s.regs.lcdc.getLsbD 7 = true →
    exec (.advance n) s =
      .next { State.dotStep^[(s.acc + n) / 4] s.lycCheck with acc := (s.acc + n) % 4 }

/-- R102 (bit 6 is G2: log 13): an ADVANCE too short for a dot step only runs the comparator: STAT[2] becomes LY = LYC,
and an equality with STAT[6] set requests LCD_STAT; nothing else but the accumulator changes. -/
def Obligations.LycCheckSetsTheFlagAndRequests : Prop :=
  ∀ (s : State) (n : Nat), s.regs.lcdc.getLsbD 7 = true → s.acc + n < 4 →
    ∃ w : Byte,
      exec (.advance n) s =
        .next { s with
          acc := s.acc + n
          regs := { s.regs with stat := w }
          trace := s.trace ++
            if s.regs.ly = s.regs.lyc ∧ s.regs.stat.getLsbD 6 = true then [.interrupt .lcdStat] else [] } ∧
      w.getLsbD 2 = decide (s.regs.ly = s.regs.lyc) ∧ ∀ i, i ≠ 2 → w.getLsbD i = s.regs.stat.getLsbD i

/-- R286 (bit 6 is G2: log 13): every ADVANCE that starts with LY = LYC and STAT[6] set requests LCD_STAT first of all,
whatever its cycles. -/
def Obligations.EveryCallRequestsWhileLyEqualsLyc : Prop :=
  ∀ (s : State) (n : Nat), s.regs.lcdc.getLsbD 7 = true → s.regs.ly = s.regs.lyc → s.regs.stat.getLsbD 6 = true →
    ∃ t es, exec (.advance n) s = .next t ∧ t.trace = s.trace ++ Event.interrupt .lcdStat :: es

/-- R104, R105, R111, R112: one dot step moves the position by 4 dots, wraps at the end of a line and of a frame, and
leaves the stored mode of the new position. Line 153 is V-Blank by 90_conflicts.md C1. -/
def Obligations.DotStepMovesThePosition : Prop :=
  ∀ (s : State) (n : Nat), s.regs.lcdc.getLsbD 7 = true → 4 ≤ s.acc + n → s.acc + n < 8 → s.regs.ly.toNat ≤ 153 →
    ∃ t, exec (.advance n) s = .next t ∧ t.acc = s.acc + n - 4 ∧
      (s.dot + 4 < 456 → t.dot = s.dot + 4 ∧ t.regs.ly = s.regs.ly) ∧
      (456 ≤ s.dot + 4 → t.dot = 0 ∧
        (s.regs.ly.toNat < 153 → t.regs.ly.toNat = s.regs.ly.toNat + 1) ∧
        (s.regs.ly.toNat = 153 → t.regs.ly = 0)) ∧
      t.regs.stat.toNat % 4 =
        if 144 ≤ t.regs.ly.toNat then 1 else if t.dot < 80 then 2 else if t.dot < 252 then 3 else 0

/-- R106, R107, R109, R110, R253, R256: what one dot step adds to the trace. The comparator's request comes first; then,
where the mode of the new position differs from the stored mode, the events of that mode's entry. The enable bits are G2
(log 13); that VBLANK has no enable and the order of its three events are the spec's decisions D7, D8, D9 (log 15). -/
def Obligations.ModeEntriesEmitTheirEvents : Prop :=
  ∀ (s : State) (n : Nat), s.regs.lcdc.getLsbD 7 = true → 4 ≤ s.acc + n → s.acc + n < 8 →
    ∃ t, exec (.advance n) s = .next t ∧
      t.trace = s.trace ++
        (if s.regs.ly = s.regs.lyc ∧ s.regs.stat.getLsbD 6 = true then [Event.interrupt .lcdStat] else []) ++
        (if t.regs.stat.toNat % 4 = s.regs.stat.toNat % 4 then []
         else if t.regs.stat.toNat % 4 = 2 then
          (if s.regs.stat.getLsbD 5 = true then [Event.interrupt .lcdStat] else [])
         else if t.regs.stat.toNat % 4 = 0 then
          (if s.regs.stat.getLsbD 3 = true then [Event.interrupt .lcdStat] else [])
         else if t.regs.stat.toNat % 4 = 1 then
          [Event.interrupt .vblank] ++
            (if s.regs.stat.getLsbD 4 = true then [Event.interrupt .lcdStat] else []) ++ [Event.notifyVblankEntry]
         else [])

/-- R108 (with R153 for the rows): a dot step that enters mode 3 clears both FIFOs, renders the line it is on from the
registers and VRAM as they stand, and requests nothing (the trace grows by the comparator's events alone); no other row
changes. A dot step that does not enter mode 3 changes no row and no FIFO. -/
def Obligations.DrawingEntryRendersTheLine : Prop :=
  ∀ (s : State) (n : Nat), s.regs.lcdc.getLsbD 7 = true → 4 ≤ s.acc + n → s.acc + n < 8 →
    ∃ t, exec (.advance n) s = .next t ∧
      (t.regs.stat.toNat % 4 = 3 ∧ s.regs.stat.toNat % 4 ≠ 3 →
        t.bgFifo = [] ∧ t.objFifo = [] ∧ t.trace = s.lycCheck.trace ∧
        (∀ x, x < 160 → t.fbPixel t.line x = renderPixel s.regs s.vram t.line x) ∧
        (∀ y x, y ≠ t.line → t.fbPixel y x = s.fbPixel y x)) ∧
      (t.regs.stat.toNat % 4 ≠ 3 ∨ s.regs.stat.toNat % 4 = 3 →
        t.fb = s.fb ∧ t.bgFifo = s.bgFifo ∧ t.objFifo = s.objFifo)

/-- R113: along a visible line, from dot 0 in mode 2, the stored mode is 2 up to dot 76, 3 from dot 80 to 248, 0 from dot
252 to 452, and the 114th step is at dot 0 of the next line, in mode 2 or, after line 143, in mode 1. -/
def Obligations.VisibleLineGoesTwoThreeZero : Prop :=
  ∀ (s : State) (k : Nat), s.regs.lcdc.getLsbD 7 = true → s.regs.ly.toNat < 144 → s.dot = 0 → s.acc = 0 →
    s.regs.stat.toNat % 4 = 2 → k ≤ 114 →
    ∃ t, exec (.advance (4 * k)) s = .next t ∧ t.acc = 0 ∧
      (k < 114 → t.regs.ly = s.regs.ly ∧ t.dot = 4 * k ∧
        t.regs.stat.toNat % 4 = if 4 * k ≤ 76 then 2 else if 4 * k ≤ 248 then 3 else 0) ∧
      (k = 114 → t.regs.ly.toNat = s.regs.ly.toNat + 1 ∧ t.dot = 0 ∧
        t.regs.stat.toNat % 4 = if s.regs.ly.toNat = 143 then 1 else 2)

/-- R115 (R103, R104): from every state that meets the invariant, with the LCD on, ADVANCE moves the place in the frame,
456·LY + dot, by 4 for every whole 4 cycles, modulo the frame of 70224 dots. So 70224 dots bring LY and dot back, and LY
takes its 154 values in order. The remainder is carried by the spec's decision D3 (log 14). -/
def Obligations.AdvanceMovesThePlaceInTheFrame : Prop :=
  ∀ (s : State) (n : Nat), s.Inv → s.regs.lcdc.getLsbD 7 = true →
    ∃ t, exec (.advance n) s = .next t ∧ t.acc = (s.acc + n) % 4 ∧ t.dot < 456 ∧
      456 * t.regs.ly.toNat + t.dot = (456 * s.regs.ly.toNat + s.dot + 4 * ((s.acc + n) / 4)) % 70224

/-- R116 (its enables are G2: log 13; D7 and D9: log 15; the carried remainder is D3: log 14): the requests of one frame
delivered in one call that finds LY ≠ LYC. -/
def Obligations.RequestsOfOneFrame : Prop :=
  ∀ s : State, s.regs.lcdc.getLsbD 7 = true → s.regs.ly = 0 → s.dot = 0 → s.regs.stat.toNat % 4 = 2 → s.acc ≤ 3 →
    s.regs.lyc ≠ 0 →
    ∃ t es, exec (.advance 70224) s = .next t ∧ t.trace = s.trace ++ es ∧
      es.count (.interrupt .lcdStat) =
        (if s.regs.stat.getLsbD 3 = true then 144 else 0) + (if s.regs.stat.getLsbD 5 = true then 144 else 0) +
          (if s.regs.stat.getLsbD 4 = true then 1 else 0) ∧
      es.count (.interrupt .vblank) = 1 ∧ es.count .notifyVblankEntry = 1

/-- R108, R115, R153: one frame of 70224 dots, from any state that meets the invariant and stands in the mode of its
position, renders every visible line from the registers and the VRAM of its start. The carried
remainder is the spec's decision D3 (log 14). -/
def Obligations.OneFrameRendersEveryLine : Prop :=
  ∀ s : State, s.Inv → s.Synced → s.regs.lcdc.getLsbD 7 = true →
    ∃ t, exec (.advance 70224) s = .next t ∧
      ∀ y x, y < 144 → x < 160 → t.fbPixel y x = renderPixel s.regs s.vram y x

/-- R155, R284, R288: from mode 3 of a line on, whatever the registers and VRAM hold by then, no row changes before dot 80
of the next line; and from the entry of V-Blank on no row changes for 4640 dots. The carried remainder is
the spec's decision D3 (log 14). -/
def Obligations.NoRowChangesUntilTheNextDrawingEntry : Prop :=
  ∀ (s : State) (n : Nat), s.Inv → s.Synced → s.regs.lcdc.getLsbD 7 = true →
    ∃ t, exec (.advance n) s = .next t ∧
      (s.regs.ly.toNat < 144 → 80 ≤ s.dot → s.dot + (s.acc + n) < 456 + 80 → t.fb = s.fb) ∧
      (s.regs.ly.toNat = 144 → s.dot = 0 → s.acc + n < 4640 → t.fb = s.fb)

/-- R103, R287, R90: cutting an ADVANCE in two changes nothing but what the second comparison writes: STAT[2], and
LCD_STAT requests in the trace. The remainder is carried by the spec's decision D3 (log 14). -/
def Obligations.BatchingShowsOnlyInTheComparison : Prop :=
  ∀ (s : State) (a b : Nat), ∃ t u w,
    exec (.advance a) s = .next t ∧ exec (.advance b) t = .next u ∧ exec (.advance (a + b)) s = .next w ∧
    u = { w with regs := { w.regs with stat := u.regs.stat }, trace := u.trace } ∧
    (∀ i, i ≠ 2 → u.regs.stat.getLsbD i = w.regs.stat.getLsbD i) ∧
    u.trace.filter (fun e => decide (e ≠ .interrupt .lcdStat)) =
      w.trace.filter (fun e => decide (e ≠ .interrupt .lcdStat))

/-- R27, R102, R103: with LYC above 153 no comparison in a reachable state finds an equality, and then an ADVANCE is the
same in one call or in two. The carried remainder is the spec's decision D3 (log 14). -/
def Obligations.SplitAdvanceIsOneAdvanceWithLycOutOfRange : Prop :=
  ∀ (s : State) (a b : Nat), s.Inv → 153 < s.regs.lyc.toNat → ∃ t u,
    exec (.advance a) s = .next t ∧ exec (.advance b) t = .next u ∧ exec (.advance (a + b)) s = .next u

/-! ## The renderer -/

/-- R140-R152, written out in plain arithmetic: a window pixel has the window's map and coordinates, every other pixel the
background's; the map gives the tile, the tile two bit-planes, those the color index, BGP the shade, the shade the gray.
LCDC[2:0] appears nowhere. Layer and coordinates: D10, D11 (log 16); layouts and bit positions: G1, G3-G6 (logs 13, 17);
alpha and byte order: D13 (log 18). -/
def Obligations.RenderedPixelIsTheSpecsFormula : Prop :=
  ∀ (r : RegBank) (vram : Memory) (ly px : Nat), ly < 144 → px < 160 →
    ∃ map x y idx tile lo hi ci sh : Nat,
      (if r.lcdc.getLsbD 5 = true ∧ r.wy.toNat ≤ ly ∧ r.wx.toNat ≤ px + 7 then
        map = (if r.lcdc.getLsbD 6 = true then 0x1C00 else 0x1800) ∧ x + r.wx.toNat = px + 7 ∧ y + r.wy.toNat = ly
      else
        map = (if r.lcdc.getLsbD 3 = true then 0x1C00 else 0x1800) ∧ x = (px + r.scx.toNat) % 256 ∧
          y = (ly + r.scy.toNat) % 256) ∧
      idx = (vram.readByte (map + 32 * (y / 8) + x / 8)).toNat ∧
      tile = (if r.lcdc.getLsbD 4 = true then 16 * idx else if idx < 128 then 0x1000 + 16 * idx else 16 * idx) ∧
      lo = (vram.readByte (tile + 2 * (y % 8))).toNat ∧
      hi = (vram.readByte (tile + 2 * (y % 8) + 1)).toNat ∧
      ci = 2 * (hi / 2 ^ (7 - x % 8) % 2) + lo / 2 ^ (7 - x % 8) % 2 ∧
      sh = r.bgp.toNat / 2 ^ (2 * ci) % 4 ∧
      (renderPixel r vram ly px).r.toNat = 255 - 85 * sh ∧ (renderPixel r vram ly px).g.toNat = 255 - 85 * sh ∧
      (renderPixel r vram ly px).b.toNat = 255 - 85 * sh ∧ (renderPixel r vram ly px).a.toNat = 255

/-- R140: "every address the pseudocode forms lies in 0x8000-0x9FFF": the tile index and both bit-planes of every pixel of
a visible line lie inside VRAM, the index in a tile map (from 0x1800 on) and the planes in tile data (below it). -/
def Obligations.RenderAddressesStayInVram : Prop :=
  ∀ (r : RegBank) (vram : Memory) (ly px : Nat), ly < 144 → px < 160 →
    0x1800 ≤ mapOffset (pixelMap r ly px) (pixelX r ly px) (pixelY r ly px) ∧
    mapOffset (pixelMap r ly px) (pixelX r ly px) (pixelY r ly px) < 8192 ∧
    pixelRow r vram ly px + 1 < 0x1800

/-- R140's example and the source's fixture (95_test_vectors.md L1-6): with VRAM all zero and shade 0 for color index 0
(BGP = 0xE4 among others), a line is rendered white whatever the scroll, the window and the other LCDC bits. -/
def Obligations.BlankVramRendersWhite : Prop :=
  ∀ (s : State) (n : Nat), s.regs.lcdc.getLsbD 7 = true → 4 ≤ s.acc + n → s.acc + n < 8 →
    s.regs.stat.toNat % 4 ≠ 3 → (∀ o, s.vramByte o = 0) → s.regs.bgp.toNat % 4 = 0 →
    ∃ t, exec (.advance n) s = .next t ∧
      (t.regs.stat.toNat % 4 = 3 → ∀ x, x < 160 → t.fbPixel t.line x = ⟨0xFF, 0xFF, 0xFF, 0xFF⟩)

/-- R159: every entry ADVANCE writes is one of the four opaque grays (A = 0xFF is D13: log 18). -/
def Obligations.RenderedEntriesAreFourGrays : Prop :=
  ∀ (s : State) (n : Nat), ∃ t, exec (.advance n) s = .next t ∧
    ∀ y x, x < 160 → t.fbPixel y x = s.fbPixel y x ∨
      t.fbPixel y x ∈ [(⟨0xFF, 0xFF, 0xFF, 0xFF⟩ : Pixel), ⟨0xAA, 0xAA, 0xAA, 0xFF⟩, ⟨0x55, 0x55, 0x55, 0xFF⟩,
        ⟨0x00, 0x00, 0x00, 0xFF⟩]

/-- R156: of two states that differ only in OAM, OBP0, OBP1, LCDC[1] and LCDC[2], the same ADVANCE leaves two that
differ only so, with one frame buffer: those reach no pixel, and the OAM scan does no work. -/
def Obligations.SpritesNeverReachTheFrameBuffer : Prop :=
  ∀ (s : State) (n : Nat) (oam : Memory) (lcdc obp0 obp1 : Byte),
    (∀ i, i ≠ 1 → i ≠ 2 → lcdc.getLsbD i = s.regs.lcdc.getLsbD i) →
    ∃ t, exec (.advance n) s = .next t ∧
      exec (.advance n) { s with oam := oam, regs := { s.regs with lcdc := lcdc, obp0 := obp0, obp1 := obp1 } } =
        .next { t with oam := oam, regs := { t.regs with lcdc := lcdc, obp0 := obp0, obp1 := obp1 } }

/-! ## Invariants -/

/-- R46's facts about dot, LY and acc, with the canonical form of VRAM, OAM and FB: every step keeps them, from every
state that meets them. -/
def Obligations.EveryStepKeepsTheInvariant : Prop :=
  ∀ s t : State, s.Inv → step s = .next t → t.Inv

/-- The last clause of R46 as an invariant of every step: a state whose stored mode is that of its position stays so. -/
def Obligations.EveryStepKeepsTheModeOfThePosition : Prop :=
  ∀ s t : State, s.Synced → step s = .next t → t.Synced

/-- R46 whole: of every state reached by transactions from a reset of R280, and with the LCD on and a dot step run since
it was last enabled or reset, the stored mode is that of the position. -/
def Obligations.ReachedStatesMeetTheSpecsInvariant : Prop :=
  ∀ (b : Bool) (s : State), Reached b s →
    s.dot % 4 = 0 ∧ s.dot ≤ 452 ∧ s.regs.ly.toNat ≤ 153 ∧ s.acc ≤ 3 ∧
    (s.regs.lcdc.getLsbD 7 = true → b = true → s.modeSt = target s.regs.ly.toNat s.dot)
end

