-- ==== Sys2Proof/Laws/State.lean ====
section
/-! SUPPORT. One lemma per field per update of the state, true by rfl, so that no later proof unfolds a record update; and
the small laws of the register bank and of the STAT bits. -/

namespace Sys2Proof.Machine

variable (s : State)

/-! ### State.setReg -/

@[simp] theorem State.setReg_regs (r : Reg) (v : Byte) : (s.setReg r v).regs = s.regs.set r v := rfl
@[simp] theorem State.setReg_dot (r : Reg) (v : Byte) : (s.setReg r v).dot = s.dot := rfl
@[simp] theorem State.setReg_acc (r : Reg) (v : Byte) : (s.setReg r v).acc = s.acc := rfl
@[simp] theorem State.setReg_bgFifo (r : Reg) (v : Byte) : (s.setReg r v).bgFifo = s.bgFifo := rfl
@[simp] theorem State.setReg_objFifo (r : Reg) (v : Byte) : (s.setReg r v).objFifo = s.objFifo := rfl
@[simp] theorem State.setReg_vram (r : Reg) (v : Byte) : (s.setReg r v).vram = s.vram := rfl
@[simp] theorem State.setReg_oam (r : Reg) (v : Byte) : (s.setReg r v).oam = s.oam := rfl
@[simp] theorem State.setReg_fb (r : Reg) (v : Byte) : (s.setReg r v).fb = s.fb := rfl
@[simp] theorem State.setReg_trace (r : Reg) (v : Byte) : (s.setReg r v).trace = s.trace := rfl
@[simp] theorem State.setReg_pending (r : Reg) (v : Byte) : (s.setReg r v).pending = s.pending := rfl
@[simp] theorem State.setReg_result (r : Reg) (v : Byte) : (s.setReg r v).result = s.result := rfl

/-! ### State.setMode -/

@[simp] theorem State.setMode_regs (m : Mode) : (s.setMode m).regs = s.regs.set .stat (statWithMode (s.reg .stat) m) := rfl
@[simp] theorem State.setMode_dot (m : Mode) : (s.setMode m).dot = s.dot := rfl
@[simp] theorem State.setMode_acc (m : Mode) : (s.setMode m).acc = s.acc := rfl
@[simp] theorem State.setMode_bgFifo (m : Mode) : (s.setMode m).bgFifo = s.bgFifo := rfl
@[simp] theorem State.setMode_objFifo (m : Mode) : (s.setMode m).objFifo = s.objFifo := rfl
@[simp] theorem State.setMode_vram (m : Mode) : (s.setMode m).vram = s.vram := rfl
@[simp] theorem State.setMode_oam (m : Mode) : (s.setMode m).oam = s.oam := rfl
@[simp] theorem State.setMode_fb (m : Mode) : (s.setMode m).fb = s.fb := rfl
@[simp] theorem State.setMode_trace (m : Mode) : (s.setMode m).trace = s.trace := rfl
@[simp] theorem State.setMode_pending (m : Mode) : (s.setMode m).pending = s.pending := rfl
@[simp] theorem State.setMode_result (m : Mode) : (s.setMode m).result = s.result := rfl

/-! ### State.setDot -/

@[simp] theorem State.setDot_regs (d : Nat) : (s.setDot d).regs = s.regs := rfl
@[simp] theorem State.setDot_dot (d : Nat) : (s.setDot d).dot = d := rfl
@[simp] theorem State.setDot_acc (d : Nat) : (s.setDot d).acc = s.acc := rfl
@[simp] theorem State.setDot_bgFifo (d : Nat) : (s.setDot d).bgFifo = s.bgFifo := rfl
@[simp] theorem State.setDot_objFifo (d : Nat) : (s.setDot d).objFifo = s.objFifo := rfl
@[simp] theorem State.setDot_vram (d : Nat) : (s.setDot d).vram = s.vram := rfl
@[simp] theorem State.setDot_oam (d : Nat) : (s.setDot d).oam = s.oam := rfl
@[simp] theorem State.setDot_fb (d : Nat) : (s.setDot d).fb = s.fb := rfl
@[simp] theorem State.setDot_trace (d : Nat) : (s.setDot d).trace = s.trace := rfl
@[simp] theorem State.setDot_pending (d : Nat) : (s.setDot d).pending = s.pending := rfl
@[simp] theorem State.setDot_result (d : Nat) : (s.setDot d).result = s.result := rfl
@[simp] theorem State.setDot_reg (d : Nat) (q : Reg) : (s.setDot d).reg q = s.reg q := rfl
@[simp] theorem State.setDot_line (d : Nat) : (s.setDot d).line = s.line := rfl
@[simp] theorem State.setDot_lcdOn (d : Nat) : (s.setDot d).lcdOn = s.lcdOn := rfl
@[simp] theorem State.setDot_modeSt (d : Nat) : (s.setDot d).modeSt = s.modeSt := rfl
@[simp] theorem State.setDot_modeEff (d : Nat) : (s.setDot d).modeEff = s.modeEff := rfl

/-! ### State.setAcc -/

@[simp] theorem State.setAcc_regs (a : Nat) : (s.setAcc a).regs = s.regs := rfl
@[simp] theorem State.setAcc_dot (a : Nat) : (s.setAcc a).dot = s.dot := rfl
@[simp] theorem State.setAcc_acc (a : Nat) : (s.setAcc a).acc = a := rfl
@[simp] theorem State.setAcc_bgFifo (a : Nat) : (s.setAcc a).bgFifo = s.bgFifo := rfl
@[simp] theorem State.setAcc_objFifo (a : Nat) : (s.setAcc a).objFifo = s.objFifo := rfl
@[simp] theorem State.setAcc_vram (a : Nat) : (s.setAcc a).vram = s.vram := rfl
@[simp] theorem State.setAcc_oam (a : Nat) : (s.setAcc a).oam = s.oam := rfl
@[simp] theorem State.setAcc_fb (a : Nat) : (s.setAcc a).fb = s.fb := rfl
@[simp] theorem State.setAcc_trace (a : Nat) : (s.setAcc a).trace = s.trace := rfl
@[simp] theorem State.setAcc_pending (a : Nat) : (s.setAcc a).pending = s.pending := rfl
@[simp] theorem State.setAcc_result (a : Nat) : (s.setAcc a).result = s.result := rfl
@[simp] theorem State.setAcc_reg (a : Nat) (q : Reg) : (s.setAcc a).reg q = s.reg q := rfl
@[simp] theorem State.setAcc_line (a : Nat) : (s.setAcc a).line = s.line := rfl
@[simp] theorem State.setAcc_lcdOn (a : Nat) : (s.setAcc a).lcdOn = s.lcdOn := rfl
@[simp] theorem State.setAcc_modeSt (a : Nat) : (s.setAcc a).modeSt = s.modeSt := rfl
@[simp] theorem State.setAcc_modeEff (a : Nat) : (s.setAcc a).modeEff = s.modeEff := rfl

/-! ### State.clearFifos -/

@[simp] theorem State.clearFifos_regs : (s.clearFifos).regs = s.regs := rfl
@[simp] theorem State.clearFifos_dot : (s.clearFifos).dot = s.dot := rfl
@[simp] theorem State.clearFifos_acc : (s.clearFifos).acc = s.acc := rfl
@[simp] theorem State.clearFifos_bgFifo : (s.clearFifos).bgFifo = [] := rfl
@[simp] theorem State.clearFifos_objFifo : (s.clearFifos).objFifo = [] := rfl
@[simp] theorem State.clearFifos_vram : (s.clearFifos).vram = s.vram := rfl
@[simp] theorem State.clearFifos_oam : (s.clearFifos).oam = s.oam := rfl
@[simp] theorem State.clearFifos_fb : (s.clearFifos).fb = s.fb := rfl
@[simp] theorem State.clearFifos_trace : (s.clearFifos).trace = s.trace := rfl
@[simp] theorem State.clearFifos_pending : (s.clearFifos).pending = s.pending := rfl
@[simp] theorem State.clearFifos_result : (s.clearFifos).result = s.result := rfl
@[simp] theorem State.clearFifos_reg (q : Reg) : (s.clearFifos).reg q = s.reg q := rfl
@[simp] theorem State.clearFifos_line : (s.clearFifos).line = s.line := rfl
@[simp] theorem State.clearFifos_lcdOn : (s.clearFifos).lcdOn = s.lcdOn := rfl
@[simp] theorem State.clearFifos_modeSt : (s.clearFifos).modeSt = s.modeSt := rfl
@[simp] theorem State.clearFifos_modeEff : (s.clearFifos).modeEff = s.modeEff := rfl

/-! ### State.emit -/

@[simp] theorem State.emit_regs (es : List Event) : (s.emit es).regs = s.regs := rfl
@[simp] theorem State.emit_dot (es : List Event) : (s.emit es).dot = s.dot := rfl
@[simp] theorem State.emit_acc (es : List Event) : (s.emit es).acc = s.acc := rfl
@[simp] theorem State.emit_bgFifo (es : List Event) : (s.emit es).bgFifo = s.bgFifo := rfl
@[simp] theorem State.emit_objFifo (es : List Event) : (s.emit es).objFifo = s.objFifo := rfl
@[simp] theorem State.emit_vram (es : List Event) : (s.emit es).vram = s.vram := rfl
@[simp] theorem State.emit_oam (es : List Event) : (s.emit es).oam = s.oam := rfl
@[simp] theorem State.emit_fb (es : List Event) : (s.emit es).fb = s.fb := rfl
@[simp] theorem State.emit_trace (es : List Event) : (s.emit es).trace = s.trace ++ es := rfl
@[simp] theorem State.emit_pending (es : List Event) : (s.emit es).pending = s.pending := rfl
@[simp] theorem State.emit_result (es : List Event) : (s.emit es).result = s.result := rfl
@[simp] theorem State.emit_reg (es : List Event) (q : Reg) : (s.emit es).reg q = s.reg q := rfl
@[simp] theorem State.emit_line (es : List Event) : (s.emit es).line = s.line := rfl
@[simp] theorem State.emit_lcdOn (es : List Event) : (s.emit es).lcdOn = s.lcdOn := rfl
@[simp] theorem State.emit_modeSt (es : List Event) : (s.emit es).modeSt = s.modeSt := rfl
@[simp] theorem State.emit_modeEff (es : List Event) : (s.emit es).modeEff = s.modeEff := rfl

/-! ### State.setVram -/

@[simp] theorem State.setVram_regs (m : Memory) : (s.setVram m).regs = s.regs := rfl
@[simp] theorem State.setVram_dot (m : Memory) : (s.setVram m).dot = s.dot := rfl
@[simp] theorem State.setVram_acc (m : Memory) : (s.setVram m).acc = s.acc := rfl
@[simp] theorem State.setVram_bgFifo (m : Memory) : (s.setVram m).bgFifo = s.bgFifo := rfl
@[simp] theorem State.setVram_objFifo (m : Memory) : (s.setVram m).objFifo = s.objFifo := rfl
@[simp] theorem State.setVram_vram (m : Memory) : (s.setVram m).vram = m := rfl
@[simp] theorem State.setVram_oam (m : Memory) : (s.setVram m).oam = s.oam := rfl
@[simp] theorem State.setVram_fb (m : Memory) : (s.setVram m).fb = s.fb := rfl
@[simp] theorem State.setVram_trace (m : Memory) : (s.setVram m).trace = s.trace := rfl
@[simp] theorem State.setVram_pending (m : Memory) : (s.setVram m).pending = s.pending := rfl
@[simp] theorem State.setVram_result (m : Memory) : (s.setVram m).result = s.result := rfl
@[simp] theorem State.setVram_reg (m : Memory) (q : Reg) : (s.setVram m).reg q = s.reg q := rfl
@[simp] theorem State.setVram_line (m : Memory) : (s.setVram m).line = s.line := rfl
@[simp] theorem State.setVram_lcdOn (m : Memory) : (s.setVram m).lcdOn = s.lcdOn := rfl
@[simp] theorem State.setVram_modeSt (m : Memory) : (s.setVram m).modeSt = s.modeSt := rfl
@[simp] theorem State.setVram_modeEff (m : Memory) : (s.setVram m).modeEff = s.modeEff := rfl

/-! ### State.setOam -/

@[simp] theorem State.setOam_regs (m : Memory) : (s.setOam m).regs = s.regs := rfl
@[simp] theorem State.setOam_dot (m : Memory) : (s.setOam m).dot = s.dot := rfl
@[simp] theorem State.setOam_acc (m : Memory) : (s.setOam m).acc = s.acc := rfl
@[simp] theorem State.setOam_bgFifo (m : Memory) : (s.setOam m).bgFifo = s.bgFifo := rfl
@[simp] theorem State.setOam_objFifo (m : Memory) : (s.setOam m).objFifo = s.objFifo := rfl
@[simp] theorem State.setOam_vram (m : Memory) : (s.setOam m).vram = s.vram := rfl
@[simp] theorem State.setOam_oam (m : Memory) : (s.setOam m).oam = m := rfl
@[simp] theorem State.setOam_fb (m : Memory) : (s.setOam m).fb = s.fb := rfl
@[simp] theorem State.setOam_trace (m : Memory) : (s.setOam m).trace = s.trace := rfl
@[simp] theorem State.setOam_pending (m : Memory) : (s.setOam m).pending = s.pending := rfl
@[simp] theorem State.setOam_result (m : Memory) : (s.setOam m).result = s.result := rfl
@[simp] theorem State.setOam_reg (m : Memory) (q : Reg) : (s.setOam m).reg q = s.reg q := rfl
@[simp] theorem State.setOam_line (m : Memory) : (s.setOam m).line = s.line := rfl
@[simp] theorem State.setOam_lcdOn (m : Memory) : (s.setOam m).lcdOn = s.lcdOn := rfl
@[simp] theorem State.setOam_modeSt (m : Memory) : (s.setOam m).modeSt = s.modeSt := rfl
@[simp] theorem State.setOam_modeEff (m : Memory) : (s.setOam m).modeEff = s.modeEff := rfl

/-! ### State.setFbRow -/

@[simp] theorem State.setFbRow_regs (y : Nat) (row : List Pixel) : (s.setFbRow y row).regs = s.regs := rfl
@[simp] theorem State.setFbRow_dot (y : Nat) (row : List Pixel) : (s.setFbRow y row).dot = s.dot := rfl
@[simp] theorem State.setFbRow_acc (y : Nat) (row : List Pixel) : (s.setFbRow y row).acc = s.acc := rfl
@[simp] theorem State.setFbRow_bgFifo (y : Nat) (row : List Pixel) : (s.setFbRow y row).bgFifo = s.bgFifo := rfl
@[simp] theorem State.setFbRow_objFifo (y : Nat) (row : List Pixel) : (s.setFbRow y row).objFifo = s.objFifo := rfl
@[simp] theorem State.setFbRow_vram (y : Nat) (row : List Pixel) : (s.setFbRow y row).vram = s.vram := rfl
@[simp] theorem State.setFbRow_oam (y : Nat) (row : List Pixel) : (s.setFbRow y row).oam = s.oam := rfl
@[simp] theorem State.setFbRow_fb (y : Nat) (row : List Pixel) : (s.setFbRow y row).fb = sparseWrite unlistedRow s.fb y row := rfl
@[simp] theorem State.setFbRow_trace (y : Nat) (row : List Pixel) : (s.setFbRow y row).trace = s.trace := rfl
@[simp] theorem State.setFbRow_pending (y : Nat) (row : List Pixel) : (s.setFbRow y row).pending = s.pending := rfl
@[simp] theorem State.setFbRow_result (y : Nat) (row : List Pixel) : (s.setFbRow y row).result = s.result := rfl
@[simp] theorem State.setFbRow_reg (y : Nat) (row : List Pixel) (q : Reg) : (s.setFbRow y row).reg q = s.reg q := rfl
@[simp] theorem State.setFbRow_line (y : Nat) (row : List Pixel) : (s.setFbRow y row).line = s.line := rfl
@[simp] theorem State.setFbRow_lcdOn (y : Nat) (row : List Pixel) : (s.setFbRow y row).lcdOn = s.lcdOn := rfl
@[simp] theorem State.setFbRow_modeSt (y : Nat) (row : List Pixel) : (s.setFbRow y row).modeSt = s.modeSt := rfl
@[simp] theorem State.setFbRow_modeEff (y : Nat) (row : List Pixel) : (s.setFbRow y row).modeEff = s.modeEff := rfl

/-! ### State.returnByte -/

@[simp] theorem State.returnByte_regs (v : Byte) : (s.returnByte v).regs = s.regs := rfl
@[simp] theorem State.returnByte_dot (v : Byte) : (s.returnByte v).dot = s.dot := rfl
@[simp] theorem State.returnByte_acc (v : Byte) : (s.returnByte v).acc = s.acc := rfl
@[simp] theorem State.returnByte_bgFifo (v : Byte) : (s.returnByte v).bgFifo = s.bgFifo := rfl
@[simp] theorem State.returnByte_objFifo (v : Byte) : (s.returnByte v).objFifo = s.objFifo := rfl
@[simp] theorem State.returnByte_vram (v : Byte) : (s.returnByte v).vram = s.vram := rfl
@[simp] theorem State.returnByte_oam (v : Byte) : (s.returnByte v).oam = s.oam := rfl
@[simp] theorem State.returnByte_fb (v : Byte) : (s.returnByte v).fb = s.fb := rfl
@[simp] theorem State.returnByte_trace (v : Byte) : (s.returnByte v).trace = s.trace := rfl
@[simp] theorem State.returnByte_pending (v : Byte) : (s.returnByte v).pending = s.pending := rfl
@[simp] theorem State.returnByte_result (v : Byte) : (s.returnByte v).result = some v := rfl
@[simp] theorem State.returnByte_reg (v : Byte) (q : Reg) : (s.returnByte v).reg q = s.reg q := rfl
@[simp] theorem State.returnByte_line (v : Byte) : (s.returnByte v).line = s.line := rfl
@[simp] theorem State.returnByte_lcdOn (v : Byte) : (s.returnByte v).lcdOn = s.lcdOn := rfl
@[simp] theorem State.returnByte_modeSt (v : Byte) : (s.returnByte v).modeSt = s.modeSt := rfl
@[simp] theorem State.returnByte_modeEff (v : Byte) : (s.returnByte v).modeEff = s.modeEff := rfl

/-! ### State.taken -/

@[simp] theorem State.taken_regs : (s.taken).regs = s.regs := rfl
@[simp] theorem State.taken_dot : (s.taken).dot = s.dot := rfl
@[simp] theorem State.taken_acc : (s.taken).acc = s.acc := rfl
@[simp] theorem State.taken_bgFifo : (s.taken).bgFifo = s.bgFifo := rfl
@[simp] theorem State.taken_objFifo : (s.taken).objFifo = s.objFifo := rfl
@[simp] theorem State.taken_vram : (s.taken).vram = s.vram := rfl
@[simp] theorem State.taken_oam : (s.taken).oam = s.oam := rfl
@[simp] theorem State.taken_fb : (s.taken).fb = s.fb := rfl
@[simp] theorem State.taken_trace : (s.taken).trace = s.trace := rfl
@[simp] theorem State.taken_pending : (s.taken).pending = s.pending.tail := rfl
@[simp] theorem State.taken_result : (s.taken).result = none := rfl
@[simp] theorem State.taken_reg (q : Reg) : (s.taken).reg q = s.reg q := rfl
@[simp] theorem State.taken_line : (s.taken).line = s.line := rfl
@[simp] theorem State.taken_lcdOn : (s.taken).lcdOn = s.lcdOn := rfl
@[simp] theorem State.taken_modeSt : (s.taken).modeSt = s.modeSt := rfl
@[simp] theorem State.taken_modeEff : (s.taken).modeEff = s.modeEff := rfl

/-! ### State.issue -/

@[simp] theorem State.issue_regs (t : Txn) : (s.issue t).regs = s.regs := rfl
@[simp] theorem State.issue_dot (t : Txn) : (s.issue t).dot = s.dot := rfl
@[simp] theorem State.issue_acc (t : Txn) : (s.issue t).acc = s.acc := rfl
@[simp] theorem State.issue_bgFifo (t : Txn) : (s.issue t).bgFifo = s.bgFifo := rfl
@[simp] theorem State.issue_objFifo (t : Txn) : (s.issue t).objFifo = s.objFifo := rfl
@[simp] theorem State.issue_vram (t : Txn) : (s.issue t).vram = s.vram := rfl
@[simp] theorem State.issue_oam (t : Txn) : (s.issue t).oam = s.oam := rfl
@[simp] theorem State.issue_fb (t : Txn) : (s.issue t).fb = s.fb := rfl
@[simp] theorem State.issue_trace (t : Txn) : (s.issue t).trace = s.trace := rfl
@[simp] theorem State.issue_pending (t : Txn) : (s.issue t).pending = s.pending ++ [t] := rfl
@[simp] theorem State.issue_result (t : Txn) : (s.issue t).result = s.result := rfl
@[simp] theorem State.issue_reg (t : Txn) (q : Reg) : (s.issue t).reg q = s.reg q := rfl
@[simp] theorem State.issue_line (t : Txn) : (s.issue t).line = s.line := rfl
@[simp] theorem State.issue_lcdOn (t : Txn) : (s.issue t).lcdOn = s.lcdOn := rfl
@[simp] theorem State.issue_modeSt (t : Txn) : (s.issue t).modeSt = s.modeSt := rfl
@[simp] theorem State.issue_modeEff (t : Txn) : (s.issue t).modeEff = s.modeEff := rfl

/-! ### The register bank -/

@[simp] theorem RegBank.get_set_self (b : RegBank) (r : Reg) (v : Byte) : (b.set r v).get r = v := by cases r <;> rfl

theorem RegBank.get_set_other (b : RegBank) (r q : Reg) (v : Byte) (h : q ≠ r) : (b.set r v).get q = b.get q := by
  cases r <;> cases q <;> first | rfl | exact absurd rfl h

@[simp] theorem RegBank.set_set (b : RegBank) (r : Reg) (v w : Byte) : (b.set r v).set r w = b.set r w := by
  cases r <;> rfl

@[simp] theorem RegBank.set_get_self (b : RegBank) (r : Reg) : b.set r (b.get r) = b := by cases r <;> rfl

@[simp] theorem State.setReg_reg_self (r : Reg) (v : Byte) : (s.setReg r v).reg r = v := RegBank.get_set_self _ _ _

theorem State.setReg_reg_other (r q : Reg) (v : Byte) (h : q ≠ r) : (s.setReg r v).reg q = s.reg q :=
  RegBank.get_set_other _ _ _ _ h

theorem State.setReg_reg (r q : Reg) (v : Byte) : (s.setReg r v).reg q = if q = r then v else s.reg q := by
  split
  next h => subst h; exact State.setReg_reg_self _ _ _
  next h => exact State.setReg_reg_other _ _ _ _ h

theorem State.setMode_reg_other (m : Mode) (q : Reg) (h : q ≠ .stat) : (s.setMode m).reg q = s.reg q :=
  State.setReg_reg_other _ _ _ _ h

@[simp] theorem State.setMode_reg_stat (m : Mode) : (s.setMode m).reg .stat = statWithMode (s.reg .stat) m :=
  State.setReg_reg_self _ _ _

@[simp] theorem State.setMode_line (m : Mode) : (s.setMode m).line = s.line := rfl
@[simp] theorem State.setMode_lcdOn (m : Mode) : (s.setMode m).lcdOn = s.lcdOn := rfl

/-! ### The STAT bits -/

/-- A mode's number names that mode (R34). -/
@[simp] theorem modeOfBits_modeBits (m : Mode) : modeOfBits (modeBits m) = m := by cases m <;> rfl

/-- A number's mode has that number (R34). -/
@[simp] theorem modeBits_modeOfBits (b : BitVec 2) : modeBits (modeOfBits b) = b := by revert b; decide

/-- The stored mode is what was put there (R107-R110). -/
@[simp] theorem statMode_statWithMode (v : Byte) (m : Mode) : statMode (statWithMode v m) = m := by
  have h : (statWithMode v m).extractLsb' 0 2 = modeBits m := by
    refine BitVec.eq_of_getLsbD_eq fun i hi => ?_
    simp only [BitVec.getLsbD_extractLsb', statWithMode, BitVec.getLsbD_append]
    simp [hi]
  simp [statMode, h]

/-- Putting in the mode that is there changes nothing. -/
@[simp] theorem statWithMode_self (v : Byte) : statWithMode v (statMode v) = v := by
  refine BitVec.eq_of_getLsbD_eq fun i hi => ?_
  simp only [statWithMode, statMode, modeBits_modeOfBits, BitVec.getLsbD_append, BitVec.getLsbD_extractLsb']
  by_cases h : i < 2
  · simp [h]
  · simp [h, show i - 2 < 6 by omega, show 2 + (i - 2) = i by omega]

/-- A mode entry keeps STAT[7:2]. -/
theorem statWithMode_high (v : Byte) (m : Mode) (i : Nat) (h : 2 ≤ i) : (statWithMode v m).getLsbD i = v.getLsbD i := by
  simp only [statWithMode, BitVec.getLsbD_append, BitVec.getLsbD_extractLsb', show ¬ i < 2 by omega]
  by_cases hi : i < 8
  · simp [show i - 2 < 6 by omega, show 2 + (i - 2) = i by omega]
  · simp [show ¬ i - 2 < 6 by omega, BitVec.getLsbD_of_ge v i (by omega)]

/-- The comparator keeps STAT[7:3] and STAT[1:0] (R102). -/
theorem statWithCoincidence_other (v : Byte) (b : Bool) (i : Nat) (h : i ≠ 2) :
    (statWithCoincidence v b).getLsbD i = v.getLsbD i := by
  simp only [statWithCoincidence, BitVec.getLsbD_append, BitVec.getLsbD_extractLsb', BitVec.getLsbD_ofBool]
  by_cases h2 : i < 2
  · simp [h2]
  · have h3 : ¬ i - 2 < 1 := by omega
    simp only [h2, h3, if_false]
    by_cases hi : i < 8
    · simp [show i - 2 - 1 < 5 by omega, show 3 + (i - 2 - 1) = i by omega]
    · simp [show ¬ i - 2 - 1 < 5 by omega, BitVec.getLsbD_of_ge v i (by omega)]

/-- The comparator's bit (R102). -/
@[simp] theorem coincidence_statWithCoincidence (v : Byte) (b : Bool) : coincidence (statWithCoincidence v b) = b := by
  simp only [coincidence, statWithCoincidence, BitVec.getLsbD_append, BitVec.getLsbD_ofBool]
  simp

/-- The comparator keeps the stored mode. -/
@[simp] theorem statMode_statWithCoincidence (v : Byte) (b : Bool) : statMode (statWithCoincidence v b) = statMode v := by
  have h : (statWithCoincidence v b).extractLsb' 0 2 = v.extractLsb' 0 2 := by
    ext i hi
    simp [statWithCoincidence_other v b i (by omega)]
  simp [statMode, h]

/-- A bus write stores bits 7:2 (R194). -/
theorem statAfterWrite_high (v w : Byte) (i : Nat) (h : 2 ≤ i) : (statAfterWrite v w).getLsbD i = v.getLsbD i := by
  by_cases hi : i < 8
  · interval_cases i <;> simp [statAfterWrite]
  · simp [BitVec.getLsbD_of_ge _ i (show 8 ≤ i by omega)]

/-- A bus write keeps bits 1:0 (R194). -/
theorem statAfterWrite_low (v w : Byte) (i : Nat) (h : i < 2) : (statAfterWrite v w).getLsbD i = w.getLsbD i := by
  interval_cases i <;> simp [statAfterWrite]

/-- A bus write keeps the stored mode (R34, R194). -/
@[simp] theorem statMode_statAfterWrite (v w : Byte) : statMode (statAfterWrite v w) = statMode w := by
  have h : (statAfterWrite v w).extractLsb' 0 2 = w.extractLsb' 0 2 := by
    ext i hi
    simp [statAfterWrite_low v w i hi]
  simp [statMode, h]

@[simp] theorem State.setMode_modeSt (m : Mode) : (s.setMode m).modeSt = m := by simp [State.modeSt]

end Sys2Proof.Machine
end

