-- ==== Sys2Proof/Laws/Memory.lean ====
section
/-! SUPPORT. The laws of the sparse tables, of the byte memories and of the frame buffer: read after write, writes leave
every other place alone, every operation keeps the canonical form, and canonical tables that read alike are equal. -/

namespace Sys2Proof.Machine

section Sparse

variable {α : Type} (d : α)

theorem sparseRead_erase (m : List (Nat × α)) (k q : Nat) :
    sparseRead d (sparseErase m k) q = if q = k then d else sparseRead d m q := by
  induction m with
  | nil => simp [sparseErase, sparseRead]
  | cons e m ih =>
    obtain ⟨k', v'⟩ := e
    simp only [sparseErase]
    by_cases hk : k = k'
    · subst hk
      rw [if_pos rfl, ih]
      simp only [sparseRead]
      split <;> rfl
    · rw [if_neg hk]
      simp only [sparseRead, ih]
      by_cases hq : q = k'
      · subst hq
        simp [Ne.symm hk]
      · simp [hq]

theorem sparseRead_insert (m : List (Nat × α)) (k q : Nat) (v : α) (h : ∀ e ∈ m, e.1 ≠ k) :
    sparseRead d (sparseInsert m k v) q = if q = k then v else sparseRead d m q := by
  induction m with
  | nil => simp [sparseInsert, sparseRead]
  | cons e m ih =>
    obtain ⟨k', v'⟩ := e
    have hk : k' ≠ k := h _ List.mem_cons_self
    simp only [sparseInsert]
    by_cases hlt : k < k'
    · simp [hlt, sparseRead]
    · simp only [hlt, if_false, sparseRead, ih fun e he => h e (List.mem_cons_of_mem _ he)]
      by_cases hq : q = k'
      · subst hq; simp [hk]
      · simp [hq]

theorem sparseErase_mem (m : List (Nat × α)) (k : Nat) (e : Nat × α) :
    e ∈ sparseErase m k ↔ e ∈ m ∧ e.1 ≠ k := by
  induction m with
  | nil => simp [sparseErase]
  | cons c m ih =>
    obtain ⟨k', v'⟩ := c
    simp only [sparseErase]
    by_cases hk : k = k'
    · subst hk
      rw [if_pos rfl, ih, List.mem_cons]
      constructor
      · rintro ⟨h, hn⟩; exact ⟨.inr h, hn⟩
      · rintro ⟨rfl | h, hn⟩
        · exact absurd rfl hn
        · exact ⟨h, hn⟩
    · rw [if_neg hk, List.mem_cons, List.mem_cons, ih]
      constructor
      · rintro (rfl | ⟨h, hn⟩)
        · exact ⟨.inl rfl, fun h => hk h.symm⟩
        · exact ⟨.inr h, hn⟩
      · rintro ⟨rfl | h, hn⟩
        · exact .inl rfl
        · exact .inr ⟨h, hn⟩

theorem sparseInsert_mem (m : List (Nat × α)) (k : Nat) (v : α) (e : Nat × α) :
    e ∈ sparseInsert m k v ↔ e = (k, v) ∨ e ∈ m := by
  induction m with
  | nil => simp [sparseInsert]
  | cons c m ih =>
    simp only [sparseInsert]
    split
    · simp
    · simp only [List.mem_cons, ih]
      constructor
      · rintro (h | h | h) <;> simp [h]
      · rintro (h | h | h) <;> simp [h]

variable [DecidableEq α]

/-- The value written is what the key reads as, and every other key reads as before. -/
theorem sparseRead_write (m : List (Nat × α)) (k q : Nat) (v : α) :
    sparseRead d (sparseWrite d m k v) q = if q = k then v else sparseRead d m q := by
  unfold sparseWrite
  split
  next h => rw [sparseRead_erase, h]
  next h =>
    rw [sparseRead_insert _ _ _ _ _ fun e he => ((sparseErase_mem _ _ _).1 he).2, sparseRead_erase]
    split <;> rfl

omit [DecidableEq α] in
theorem sparseErase_insert (m : List (Nat × α)) (k : Nat) (v : α) :
    sparseErase (sparseInsert m k v) k = sparseErase m k := by
  induction m with
  | nil => simp [sparseInsert, sparseErase]
  | cons c m ih =>
    simp only [sparseInsert]
    split
    · simp [sparseErase]
    · simp [sparseErase, ih]

omit [DecidableEq α] in
theorem sparseErase_erase (m : List (Nat × α)) (k : Nat) : sparseErase (sparseErase m k) k = sparseErase m k := by
  induction m with
  | nil => rfl
  | cons c m ih =>
    simp only [sparseErase]
    split
    · exact ih
    next h => simp [sparseErase, h, ih]

/-- A second write at a key hides the first. -/
theorem sparseWrite_write (m : List (Nat × α)) (k : Nat) (v w : α) :
    sparseWrite d (sparseWrite d m k v) k w = sparseWrite d m k w := by
  have h : sparseErase (sparseWrite d m k v) k = sparseErase m k := by
    unfold sparseWrite
    split
    · exact sparseErase_erase _ _
    · rw [sparseErase_insert, sparseErase_erase]
  unfold sparseWrite at h ⊢
  rw [h]

/-! ### The canonical form -/

theorem sparseWf_cons (size k : Nat) (v : α) (m : List (Nat × α)) :
    sparseWf d size ((k, v) :: m) = true ↔
      k < size ∧ v ≠ d ∧ (∀ e ∈ m, k < e.1) ∧ sparseWf d size m = true := by
  simp [sparseWf, and_assoc]

theorem sparseWf_erase (size k : Nat) (m : List (Nat × α)) (h : sparseWf d size m = true) :
    sparseWf d size (sparseErase m k) = true := by
  induction m with
  | nil => rfl
  | cons c m ih =>
    obtain ⟨k', v'⟩ := c
    obtain ⟨h1, h2, h3, h4⟩ := (sparseWf_cons d _ _ _ _).1 h
    simp only [sparseErase]
    split
    · exact ih h4
    · exact (sparseWf_cons d _ _ _ _).2 ⟨h1, h2, fun e he => h3 e ((sparseErase_mem _ _ _).1 he).1, ih h4⟩

theorem sparseWf_insert (size k : Nat) (v : α) (m : List (Nat × α)) (h : sparseWf d size m = true)
    (hk : k < size) (hv : v ≠ d) (hn : ∀ e ∈ m, e.1 ≠ k) : sparseWf d size (sparseInsert m k v) = true := by
  induction m with
  | nil => exact (sparseWf_cons d _ _ _ _).2 ⟨hk, hv, by simp, rfl⟩
  | cons c m ih =>
    obtain ⟨k', v'⟩ := c
    obtain ⟨h1, h2, h3, h4⟩ := (sparseWf_cons d _ _ _ _).1 h
    have hne : k' ≠ k := hn _ List.mem_cons_self
    simp only [sparseInsert]
    split
    next hlt =>
      refine (sparseWf_cons d _ _ _ _).2 ⟨hk, hv, fun e he => ?_, h⟩
      rcases List.mem_cons.1 he with rfl | he
      · exact hlt
      · exact lt_trans hlt (h3 e he)
    next hlt =>
      refine (sparseWf_cons d _ _ _ _).2
        ⟨h1, h2, fun e he => ?_, ih h4 fun e he => hn e (List.mem_cons_of_mem _ he)⟩
      rcases (sparseInsert_mem _ _ _ _).1 he with rfl | he
      · show k' < k
        omega
      · exact h3 e he

/-- A write inside the table keeps the canonical form. -/
theorem sparseWf_write (size k : Nat) (v : α) (m : List (Nat × α)) (h : sparseWf d size m = true) (hk : k < size) :
    sparseWf d size (sparseWrite d m k v) = true := by
  unfold sparseWrite
  split
  · exact sparseWf_erase d _ _ _ h
  next hv =>
    exact sparseWf_insert d _ _ _ _ (sparseWf_erase d _ _ _ h) hk hv fun e he => ((sparseErase_mem _ _ _).1 he).2

omit [DecidableEq α] in
/-- A key below every listed one reads as unlisted. -/
theorem sparseRead_lt (m : List (Nat × α)) (k : Nat) (h : ∀ e ∈ m, k < e.1) : sparseRead d m k = d := by
  induction m with
  | nil => rfl
  | cons c m ih =>
    obtain ⟨k', v'⟩ := c
    have : k < k' := h _ List.mem_cons_self
    simp only [sparseRead, show k ≠ k' by omega, if_false]
    exact ih fun e he => h e (List.mem_cons_of_mem _ he)

/-- A key outside the table reads as unlisted. -/
theorem sparseRead_outside (size : Nat) (m : List (Nat × α)) (h : sparseWf d size m = true) (k : Nat) (hk : size ≤ k) :
    sparseRead d m k = d := by
  induction m with
  | nil => rfl
  | cons c m ih =>
    obtain ⟨k', v'⟩ := c
    obtain ⟨h1, -, -, h4⟩ := (sparseWf_cons d _ _ _ _).1 h
    simp only [sparseRead, show k ≠ k' by omega, if_false]
    exact ih h4

/-- Canonical tables that read alike are the same list. -/
theorem sparse_ext (size : Nat) (m n : List (Nat × α)) (hm : sparseWf d size m = true) (hn : sparseWf d size n = true)
    (h : ∀ k, sparseRead d m k = sparseRead d n k) : m = n := by
  induction m generalizing n with
  | nil =>
    cases n with
    | nil => rfl
    | cons c n =>
      obtain ⟨k, v⟩ := c
      obtain ⟨-, h2, -, -⟩ := (sparseWf_cons d _ _ _ _).1 hn
      have := h k
      simp [sparseRead] at this
      exact absurd this.symm h2
  | cons c m ih =>
    obtain ⟨k, v⟩ := c
    obtain ⟨-, hv, hk, hm'⟩ := (sparseWf_cons d _ _ _ _).1 hm
    cases n with
    | nil =>
      have := h k
      simp [sparseRead] at this
      exact absurd this hv
    | cons c n =>
      obtain ⟨k', v'⟩ := c
      obtain ⟨-, hv', hk', hn'⟩ := (sparseWf_cons d _ _ _ _).1 hn
      have hkk : k = k' := by
        rcases lt_trichotomy k k' with hlt | heq | hgt
        · have h1 := h k
          rw [sparseRead_lt d ((k', v') :: n) k (fun e he => by
            rcases List.mem_cons.1 he with rfl | he
            · exact hlt
            · exact lt_trans hlt (hk' e he))] at h1
          simp [sparseRead] at h1
          exact absurd h1 hv
        · exact heq
        · have h1 := h k'
          rw [sparseRead_lt d ((k, v) :: m) k' (fun e he => by
            rcases List.mem_cons.1 he with rfl | he
            · exact hgt
            · exact lt_trans hgt (hk e he))] at h1
          simp [sparseRead] at h1
          exact absurd h1.symm hv'
      subst hkk
      have hvv : v = v' := by simpa [sparseRead] using h k
      subst hvv
      congr 1
      refine ih n hm' hn' fun q => ?_
      have h1 := h q
      simp only [sparseRead] at h1
      by_cases hq : q = k
      · subst hq
        rw [sparseRead_lt d m q hk, sparseRead_lt d n q hk']
      · simpa [hq] using h1

end Sparse

/-! ## Byte memories -/

/-- The byte written is read back, and every other byte is unchanged. -/
theorem Memory.readByte_writeByte (m : Memory) (o q : Nat) (v : Byte) :
    (m.writeByte o v).readByte q = if q = o then v else m.readByte q := sparseRead_write _ _ _ _ _

theorem Memory.writeByte_writeByte (m : Memory) (o : Nat) (v w : Byte) :
    (m.writeByte o v).writeByte o w = m.writeByte o w := sparseWrite_write _ _ _ _ _

theorem Memory.writeByte_wf (size : Nat) (m : Memory) (o : Nat) (v : Byte) (h : m.wf size = true) (ho : o < size) :
    (m.writeByte o v).wf size = true := sparseWf_write _ _ _ _ _ h ho

/-- What a run of bytes leaves: its own bytes in place, every other byte unchanged. -/
theorem Memory.readByte_writeBytes (vs : List Byte) (m : Memory) (o q : Nat) :
    (m.writeBytes o vs).readByte q = if o ≤ q then (vs[q - o]?).getD (m.readByte q) else m.readByte q := by
  induction vs generalizing m o with
  | nil => simp [Memory.writeBytes]
  | cons v vs ih =>
    simp only [Memory.writeBytes, ih, Memory.readByte_writeByte]
    rcases lt_trichotomy q o with h | h | h
    · simp [show ¬ o + 1 ≤ q by omega, show ¬ o ≤ q by omega, show q ≠ o by omega]
    · subst h
      simp
    · simp [show o + 1 ≤ q by omega, show o ≤ q by omega, show q ≠ o by omega,
        show q - o = (q - (o + 1)) + 1 by omega]

theorem Memory.writeBytes_wf (size : Nat) (vs : List Byte) (m : Memory) (o : Nat) (h : m.wf size = true)
    (ho : o + vs.length ≤ size) : (m.writeBytes o vs).wf size = true := by
  induction vs generalizing m o with
  | nil => exact h
  | cons v vs ih =>
    simp only [List.length_cons] at ho
    exact ih _ _ (Memory.writeByte_wf _ _ _ _ h (by omega)) (by omega)

/-- Byte `i` of OAM after the DMA copy, whatever the gating (R205). -/
theorem dmaCopied_readByte (gated : Bool) (m : Mode) (oam : Memory) (src : DmaBlock) (i : Nat) :
    (dmaCopied gated m oam src).readByte i =
      if oamOpen m || !gated then (src.toList[i]?).getD (oam.readByte i) else oam.readByte i := by
  unfold dmaCopied
  split
  · simp [Memory.readByte_writeBytes]
  · rfl

theorem dmaCopied_wf (gated : Bool) (m : Mode) (oam : Memory) (src : DmaBlock) (h : oam.wf Config.oamSize = true) :
    (dmaCopied gated m oam src).wf Config.oamSize = true := by
  unfold dmaCopied
  split
  · exact Memory.writeBytes_wf _ _ _ _ h (by simp)
  · exact h

/-! ## The frame buffer -/

/-- A row written is read back, and every other row is unchanged (R153). -/
theorem State.setFbRow_row (s : State) (y y' : Nat) (row : List Pixel) :
    (s.setFbRow y row).fb.row y' = if y' = y then row else s.fb.row y' := sparseRead_write _ _ _ _ _

theorem State.setFbRow_pixel (s : State) (y y' x : Nat) (row : List Pixel) :
    (s.setFbRow y row).fbPixel y' x = if y' = y then row.getD x unlistedPixel else s.fbPixel y' x := by
  simp only [State.fbPixel, FrameBuffer.pixel, State.setFbRow_row]
  split <;> rfl

theorem State.setFbRow_wf (s : State) (y : Nat) (row : List Pixel) (h : s.fb.wf = true) (hy : y < Config.screenH)
    (hl : row.length = Config.screenW) : (s.setFbRow y row).fb.wf = true := by
  simp only [FrameBuffer.wf, Bool.and_eq_true, List.all_eq_true, decide_eq_true_eq] at h ⊢
  refine ⟨sparseWf_write _ _ _ _ _ h.1 hy, fun e he => ?_⟩
  simp only [State.setFbRow, sparseWrite] at he
  split at he
  · exact h.2 e ((sparseErase_mem _ _ _).1 he).1
  · rcases (sparseInsert_mem _ _ _ _).1 he with rfl | he
    · exact hl
    · exact h.2 e ((sparseErase_mem _ _ _).1 he).1

/-- The reset memories are canonical. -/
theorem reset_buffers_wf :
    State.reset.vram.wf Config.vramSize = true ∧ State.reset.oam.wf Config.oamSize = true ∧ State.reset.fb.wf = true :=
  ⟨rfl, rfl, rfl⟩

end Sys2Proof.Machine
end

