-- ==== Sys2Proof/Laws/Advance.lean ====
section
/-! SUPPORT. The laws of ADVANCE: what the comparator, a mode entry and a dot step do to each part of the state, and
ADVANCE as the comparator once and then a number of dot steps. Proofs about ADVANCE cite these instead of unfolding it. -/

namespace Sys2Proof.Machine

variable (s : State)

/-! ## LycCheck (R102) -/

/-- What the comparator emits. -/
def lycEvents (s : State) : List Event := lcdStatIf (s.reg .ly == s.reg .lyc && lycIrqEnable (s.reg .stat))

@[simp] theorem State.lycCheck_trace : s.lycCheck.trace = s.trace ++ lycEvents s := rfl
@[simp] theorem State.lycCheck_dot : s.lycCheck.dot = s.dot := rfl
@[simp] theorem State.lycCheck_acc : s.lycCheck.acc = s.acc := rfl
@[simp] theorem State.lycCheck_bgFifo : s.lycCheck.bgFifo = s.bgFifo := rfl
@[simp] theorem State.lycCheck_objFifo : s.lycCheck.objFifo = s.objFifo := rfl
@[simp] theorem State.lycCheck_vram : s.lycCheck.vram = s.vram := rfl
@[simp] theorem State.lycCheck_oam : s.lycCheck.oam = s.oam := rfl
@[simp] theorem State.lycCheck_fb : s.lycCheck.fb = s.fb := rfl
@[simp] theorem State.lycCheck_pending : s.lycCheck.pending = s.pending := rfl
@[simp] theorem State.lycCheck_result : s.lycCheck.result = s.result := rfl
@[simp] theorem State.lycCheck_line : s.lycCheck.line = s.line := rfl
@[simp] theorem State.lycCheck_lcdOn : s.lycCheck.lcdOn = s.lcdOn := rfl
@[simp] theorem State.lycCheck_regs : s.lycCheck.regs =
    s.regs.set .stat (statWithCoincidence (s.reg .stat) (s.reg .ly == s.reg .lyc)) := rfl
theorem State.lycCheck_reg_other (q : Reg) (h : q ≠ .stat) : s.lycCheck.reg q = s.reg q :=
  State.setReg_reg_other _ _ _ _ h
@[simp] theorem State.lycCheck_reg_stat : s.lycCheck.reg .stat =
    statWithCoincidence (s.reg .stat) (s.reg .ly == s.reg .lyc) := rfl
@[simp] theorem State.lycCheck_modeSt : s.lycCheck.modeSt = s.modeSt := by simp [State.modeSt]

/-! ## The move of the position (R104, R111, R112) -/

@[simp] theorem State.tick_dot : s.tick.dot = nextDot s.dot := rfl
@[simp] theorem State.tick_acc : s.tick.acc = s.acc := rfl
@[simp] theorem State.tick_bgFifo : s.tick.bgFifo = s.bgFifo := rfl
@[simp] theorem State.tick_objFifo : s.tick.objFifo = s.objFifo := rfl
@[simp] theorem State.tick_vram : s.tick.vram = s.vram := rfl
@[simp] theorem State.tick_oam : s.tick.oam = s.oam := rfl
@[simp] theorem State.tick_fb : s.tick.fb = s.fb := rfl
@[simp] theorem State.tick_trace : s.tick.trace = s.trace := rfl
@[simp] theorem State.tick_pending : s.tick.pending = s.pending := rfl
@[simp] theorem State.tick_result : s.tick.result = s.result := rfl
@[simp] theorem State.tick_modeSt : s.tick.modeSt = s.modeSt := rfl
@[simp] theorem State.tick_lcdOn : s.tick.lcdOn = s.lcdOn := rfl
@[simp] theorem State.tick_reg_ly : s.tick.reg .ly = nextLy s.dot (s.reg .ly) := rfl
theorem State.tick_reg_other (q : Reg) (h : q ≠ .ly) : s.tick.reg q = s.reg q := State.setReg_reg_other _ _ _ _ h
@[simp] theorem State.tick_line : s.tick.line = (nextLy s.dot (s.reg .ly)).toNat := rfl

/-! ## Mode entry (R106-R110) -/

/-- What the entry of a mode emits, from STAT as it stands. -/
def entryEvents (stat : Byte) : Mode → List Event
  | .oamScan => lcdStatIf (oamScanIrqEnable stat)
  | .drawing => []
  | .hblank  => lcdStatIf (hblankIrqEnable stat)
  | .vblank  => .interrupt .vblank :: (lcdStatIf (vblankIrqEnable stat) ++ [.notifyVblankEntry])

variable (m : Mode)

@[simp] theorem State.enterMode_dot : (s.enterMode m).dot = s.dot := by cases m <;> rfl
@[simp] theorem State.enterMode_acc : (s.enterMode m).acc = s.acc := by cases m <;> rfl
@[simp] theorem State.enterMode_vram : (s.enterMode m).vram = s.vram := by cases m <;> rfl
@[simp] theorem State.enterMode_oam : (s.enterMode m).oam = s.oam := by cases m <;> rfl
@[simp] theorem State.enterMode_pending : (s.enterMode m).pending = s.pending := by cases m <;> rfl
@[simp] theorem State.enterMode_result : (s.enterMode m).result = s.result := by cases m <;> rfl
@[simp] theorem State.enterMode_line : (s.enterMode m).line = s.line := by cases m <;> rfl
@[simp] theorem State.enterMode_lcdOn : (s.enterMode m).lcdOn = s.lcdOn := by cases m <;> rfl
theorem State.enterMode_regs : (s.enterMode m).regs = s.regs.set .stat (statWithMode (s.reg .stat) m) := by
  cases m <;> rfl
theorem State.enterMode_reg_other (q : Reg) (h : q ≠ .stat) : (s.enterMode m).reg q = s.reg q := by
  simp only [State.reg, State.enterMode_regs]
  exact RegBank.get_set_other _ _ _ _ h
@[simp] theorem State.enterMode_reg_stat : (s.enterMode m).reg .stat = statWithMode (s.reg .stat) m := by
  cases m <;> rfl
@[simp] theorem State.enterMode_modeSt : (s.enterMode m).modeSt = m := by simp [State.modeSt]
theorem State.enterMode_trace : (s.enterMode m).trace = s.trace ++ entryEvents (s.reg .stat) m := by
  cases m <;> simp [State.enterMode, entryEvents, State.renderLine]
theorem State.enterMode_bgFifo : (s.enterMode m).bgFifo = if m = .drawing then [] else s.bgFifo := by cases m <;> rfl
theorem State.enterMode_objFifo : (s.enterMode m).objFifo = if m = .drawing then [] else s.objFifo := by
  cases m <;> rfl
theorem State.enterMode_fb_other (h : m ≠ .drawing) : (s.enterMode m).fb = s.fb := by
  cases m <;> first | rfl | exact absurd rfl h

/-- A pixel does not depend on STAT (R156: the renderer reads LCDC, SCX, SCY, WX, WY, BGP and VRAM). -/
theorem renderRow_set_stat (r : RegBank) (v : Byte) (vram : Memory) (ly : Nat) :
    renderRow (r.set .stat v) vram ly = renderRow r vram ly := rfl

/-- Nor on LY itself: the line is its operand (R140). -/
theorem renderRow_set_ly (r : RegBank) (v : Byte) (vram : Memory) (ly : Nat) :
    renderRow (r.set .ly v) vram ly = renderRow r vram ly := rfl

@[simp] theorem renderRow_length (r : RegBank) (vram : Memory) (ly : Nat) :
    (renderRow r vram ly).length = Config.screenW := by simp [renderRow]

/-- Entry `x` of a rendered row. -/
theorem renderRow_getD (r : RegBank) (vram : Memory) (ly x : Nat) (h : x < Config.screenW) :
    (renderRow r vram ly).getD x unlistedPixel = renderPixel r vram ly x := by
  rw [List.getD_eq_getElem?_getD]
  simp [renderRow, h]

theorem State.enterMode_fb_drawing :
    (s.enterMode .drawing).fb = sparseWrite unlistedRow s.fb s.line (renderRow s.regs s.vram s.line) := rfl

/-! ## The dot step (R104) -/

theorem State.settle_cases : (s.modeSt = target s.line s.dot ∧ s.settle = s) ∨
    (s.modeSt ≠ target s.line s.dot ∧ s.settle = s.enterMode (target s.line s.dot)) := by
  unfold State.settle
  split
  next h => exact .inl ⟨h.symm, rfl⟩
  next h => exact .inr ⟨fun e => h e.symm, rfl⟩

@[simp] theorem State.settle_dot : s.settle.dot = s.dot := by
  rcases s.settle_cases with ⟨-, h⟩ | ⟨-, h⟩ <;> simp [h]
@[simp] theorem State.settle_acc : s.settle.acc = s.acc := by
  rcases s.settle_cases with ⟨-, h⟩ | ⟨-, h⟩ <;> simp [h]
@[simp] theorem State.settle_vram : s.settle.vram = s.vram := by
  rcases s.settle_cases with ⟨-, h⟩ | ⟨-, h⟩ <;> simp [h]
@[simp] theorem State.settle_oam : s.settle.oam = s.oam := by
  rcases s.settle_cases with ⟨-, h⟩ | ⟨-, h⟩ <;> simp [h]
@[simp] theorem State.settle_pending : s.settle.pending = s.pending := by
  rcases s.settle_cases with ⟨-, h⟩ | ⟨-, h⟩ <;> simp [h]
@[simp] theorem State.settle_result : s.settle.result = s.result := by
  rcases s.settle_cases with ⟨-, h⟩ | ⟨-, h⟩ <;> simp [h]
@[simp] theorem State.settle_line : s.settle.line = s.line := by
  rcases s.settle_cases with ⟨-, h⟩ | ⟨-, h⟩ <;> simp [h]
@[simp] theorem State.settle_lcdOn : s.settle.lcdOn = s.lcdOn := by
  rcases s.settle_cases with ⟨-, h⟩ | ⟨-, h⟩ <;> simp [h]
theorem State.settle_reg_other (q : Reg) (hq : q ≠ .stat) : s.settle.reg q = s.reg q := by
  rcases s.settle_cases with ⟨-, h⟩ | ⟨-, h⟩ <;> simp [h, State.enterMode_reg_other, hq]
@[simp] theorem State.settle_reg_stat : s.settle.reg .stat = statWithMode (s.reg .stat) (target s.line s.dot) := by
  rcases s.settle_cases with ⟨e, h⟩ | ⟨-, h⟩
  · rw [h, ← e]; simp [State.modeSt]
  · simp [h]
@[simp] theorem State.settle_modeSt : s.settle.modeSt = target s.line s.dot := by
  rcases s.settle_cases with ⟨e, h⟩ | ⟨-, h⟩
  · rw [h, e]
  · simp [h]
theorem State.settle_trace : s.settle.trace =
    s.trace ++ if target s.line s.dot = s.modeSt then [] else entryEvents (s.reg .stat) (target s.line s.dot) := by
  rcases s.settle_cases with ⟨e, h⟩ | ⟨e, h⟩
  · simp [h, e]
  · simp [h, Ne.symm e, State.enterMode_trace]

/-- The frame buffer after the second half of a dot step: the row of the line rendered where mode 3 is entered. -/
theorem State.settle_fb : s.settle.fb =
    if target s.line s.dot = .drawing ∧ s.modeSt ≠ .drawing then
      sparseWrite unlistedRow s.fb s.line (renderRow s.regs s.vram s.line)
    else s.fb := by
  rcases s.settle_cases with ⟨e, h⟩ | ⟨e, h⟩
  · rw [h, if_neg]
    rintro ⟨h1, h2⟩
    exact h2 (e.trans h1)
  · rw [h]
    by_cases ht : target s.line s.dot = .drawing
    · rw [ht] at e ⊢
      rw [State.enterMode_fb_drawing, if_pos ⟨rfl, e⟩]
    · rw [State.enterMode_fb_other _ _ ht, if_neg fun h => ht h.1]

/-- The FIFOs are cleared where mode 3 is entered, and only there (R108). -/
theorem State.settle_fifos : s.settle.bgFifo =
      (if target s.line s.dot = .drawing ∧ s.modeSt ≠ .drawing then [] else s.bgFifo) ∧
    s.settle.objFifo = (if target s.line s.dot = .drawing ∧ s.modeSt ≠ .drawing then [] else s.objFifo) := by
  rcases s.settle_cases with ⟨e, h⟩ | ⟨e, h⟩
  · rw [h, if_neg, if_neg]
    · exact ⟨rfl, rfl⟩
    all_goals exact fun hh => hh.2 (e.trans hh.1)
  · rw [h, State.enterMode_bgFifo, State.enterMode_objFifo]
    by_cases ht : target s.line s.dot = .drawing
    · rw [ht] at e
      simp [ht, e]
    · simp [ht]

@[simp] theorem State.dotStep_dot : s.dotStep.dot = nextDot s.dot := by simp [State.dotStep]
@[simp] theorem State.dotStep_acc : s.dotStep.acc = s.acc := by simp [State.dotStep]
@[simp] theorem State.dotStep_vram : s.dotStep.vram = s.vram := by simp [State.dotStep]
@[simp] theorem State.dotStep_oam : s.dotStep.oam = s.oam := by simp [State.dotStep]
@[simp] theorem State.dotStep_pending : s.dotStep.pending = s.pending := by simp [State.dotStep]
@[simp] theorem State.dotStep_result : s.dotStep.result = s.result := by simp [State.dotStep]
@[simp] theorem State.dotStep_line : s.dotStep.line = (nextLy s.dot (s.reg .ly)).toNat := by simp [State.dotStep]
@[simp] theorem State.dotStep_lcdOn : s.dotStep.lcdOn = s.lcdOn := by simp [State.dotStep]
@[simp] theorem State.dotStep_reg_ly : s.dotStep.reg .ly = nextLy s.dot (s.reg .ly) := by
  rw [State.dotStep, State.settle_reg_other _ _ (by decide), State.tick_reg_ly]
theorem State.dotStep_reg_other (q : Reg) (h1 : q ≠ .ly) (h2 : q ≠ .stat) : s.dotStep.reg q = s.reg q := by
  rw [State.dotStep, State.settle_reg_other _ _ h2, State.tick_reg_other _ _ h1]
theorem State.dotStep_reg_stat : s.dotStep.reg .stat =
    statWithMode (s.reg .stat) (target (nextLy s.dot (s.reg .ly)).toNat (nextDot s.dot)) := by
  rw [State.dotStep, State.settle_reg_stat, State.tick_reg_other _ _ (by decide)]
  rfl
/-- After a dot step the stored mode is the one of the position (R46, R106). -/
@[simp] theorem State.dotStep_modeSt :
    s.dotStep.modeSt = target (nextLy s.dot (s.reg .ly)).toNat (nextDot s.dot) := by
  simp [State.dotStep]
theorem State.dotStep_synced : s.dotStep.Synced := by simp [State.Synced]
theorem State.dotStep_trace : s.dotStep.trace = s.trace ++
    if target (nextLy s.dot (s.reg .ly)).toNat (nextDot s.dot) = s.modeSt then []
    else entryEvents (s.reg .stat) (target (nextLy s.dot (s.reg .ly)).toNat (nextDot s.dot)) := by
  rw [State.dotStep, State.settle_trace, State.tick_reg_other _ _ (by decide)]
  rfl
theorem State.dotStep_fb : s.dotStep.fb =
    if target (nextLy s.dot (s.reg .ly)).toNat (nextDot s.dot) = .drawing ∧ s.modeSt ≠ .drawing then
      sparseWrite unlistedRow s.fb (nextLy s.dot (s.reg .ly)).toNat
        (renderRow s.regs s.vram (nextLy s.dot (s.reg .ly)).toNat)
    else s.fb := by
  rw [State.dotStep, State.settle_fb]
  rfl
theorem State.dotStep_fifos : s.dotStep.bgFifo =
      (if target (nextLy s.dot (s.reg .ly)).toNat (nextDot s.dot) = .drawing ∧ s.modeSt ≠ .drawing then []
        else s.bgFifo) ∧
    s.dotStep.objFifo =
      (if target (nextLy s.dot (s.reg .ly)).toNat (nextDot s.dot) = .drawing ∧ s.modeSt ≠ .drawing then []
        else s.objFifo) := s.tick.settle_fifos

/-! ## The fixed-step loop (R103) -/

theorem State.dotStep_setAcc (a : Nat) : (s.setAcc a).dotStep = s.dotStep.setAcc a := by
  show (s.tick.setAcc a).settle = s.tick.settle.setAcc a
  rcases (s.tick.setAcc a).settle_cases with ⟨e, h⟩ | ⟨e, h⟩ <;> rcases s.tick.settle_cases with ⟨e', h'⟩ | ⟨e', h'⟩
  · rw [h, h']
  · exact absurd e e'
  · exact absurd e' e
  · rw [h, h']
    show (s.tick.setAcc a).enterMode (target s.tick.line s.tick.dot) = _
    cases target s.tick.line s.tick.dot <;> rfl

theorem State.dotSteps_setAcc (k a : Nat) : State.dotStep^[k] (s.setAcc a) = (State.dotStep^[k] s).setAcc a := by
  induction k generalizing s with
  | zero => rfl
  | succ k ih => rw [Function.iterate_succ_apply, Function.iterate_succ_apply, State.dotStep_setAcc, ih]

@[simp] theorem State.dotSteps_acc (k : Nat) : (State.dotStep^[k] s).acc = s.acc := by
  induction k generalizing s with
  | zero => rfl
  | succ k ih => rw [Function.iterate_succ_apply, ih, State.dotStep_acc]

/-- The loop that finds enough in the accumulator is that many dot steps (R103). -/
theorem State.runDots_eq (k : Nat) (h : 4 * k ≤ s.acc) :
    State.runDots k s = (State.dotStep^[k] s).setAcc (s.acc - 4 * k) := by
  induction k generalizing s with
  | zero => rfl
  | succ k ih =>
    rw [State.runDots, if_pos (show Config.dotsPerStep ≤ s.acc by simp only [Config.dotsPerStep]; omega), ih]
    · rw [State.dotStep_setAcc, State.dotSteps_setAcc, Function.iterate_succ_apply]
      simp only [State.setAcc, Config.dotsPerStep]
      congr 1
      omega
    · simp only [State.dotStep_acc, State.setAcc_acc, Config.dotsPerStep]
      omega

/-- ADVANCE with the LCD on: LycCheck once, then as many dot steps as the accumulator holds fours, the remainder
kept (R100, R102, R103). -/
theorem State.advance_on (n : Nat) (h : s.lcdOn = true) :
    s.advance n = (State.dotStep^[(s.acc + n) / 4] s.lycCheck).setAcc ((s.acc + n) % 4) := by
  rw [State.advance, if_pos h, State.runDots_eq]
  · rw [State.dotSteps_setAcc]
    simp only [State.setAcc, Config.dotsPerStep]
    congr 1
    omega
  · simp only [State.setAcc_acc, Config.dotsPerStep]
    omega

/-- ADVANCE with the LCD off: nothing (R101). -/
theorem State.advance_off (n : Nat) (h : s.lcdOn = false) : s.advance n = s := by
  rw [State.advance, if_neg (by simp [h])]

/-- A property that the comparator, a dot step and a change of the accumulator keep, ADVANCE keeps. -/
theorem State.advance_keeps {P : State → Prop} (hc : ∀ s, P s → P s.lycCheck) (hd : ∀ s, P s → P s.dotStep)
    (ha : ∀ s, P s → ∀ a, a ≤ 3 → P (s.setAcc a)) (n : Nat) (h : P s) : P (s.advance n) := by
  have hs : ∀ k t, P t → P (State.dotStep^[k] t) := by
    intro k
    induction k with
    | zero => exact fun t ht => ht
    | succ k ih => exact fun t ht => by rw [Function.iterate_succ_apply]; exact ih _ (hd _ ht)
  cases hl : s.lcdOn with
  | false => rw [State.advance_off _ _ hl]; exact h
  | true =>
    rw [State.advance_on _ _ hl]
    exact ha _ (hs _ _ (hc _ h)) _ (by omega)

/-! ## What ADVANCE never touches -/

@[simp] theorem State.advance_vram (n : Nat) : (s.advance n).vram = s.vram :=
  s.advance_keeps (P := fun t => t.vram = s.vram) (by simp) (by simp) (fun _ h _ _ => h) n rfl
@[simp] theorem State.advance_oam (n : Nat) : (s.advance n).oam = s.oam :=
  s.advance_keeps (P := fun t => t.oam = s.oam) (by simp) (by simp) (fun _ h _ _ => h) n rfl
@[simp] theorem State.advance_pending (n : Nat) : (s.advance n).pending = s.pending :=
  s.advance_keeps (P := fun t => t.pending = s.pending) (by simp) (by simp) (fun _ h _ _ => h) n rfl
@[simp] theorem State.advance_result (n : Nat) : (s.advance n).result = s.result :=
  s.advance_keeps (P := fun t => t.result = s.result) (by simp) (by simp) (fun _ h _ _ => h) n rfl
@[simp] theorem State.advance_lcdOn (n : Nat) : (s.advance n).lcdOn = s.lcdOn :=
  s.advance_keeps (P := fun t => t.lcdOn = s.lcdOn) (by simp) (by simp) (fun _ h _ _ => h) n rfl

end Sys2Proof.Machine
end

