-- ==== Sys2Proof/Laws/Encoding.lean ====
section
/-! SUPPORT. The laws of the encoding: the fields of a word put together from its parts, the address decode of each
target, and the round trips of the two. -/

namespace Sys2Proof

/-! ## Fields of a word made of its parts (R80) -/

section Fields

variable (cls : BitVec 2) (z6 : BitVec 6) (data : Byte) (addr : Addr) (n : BitVec 30)

@[simp] theorem fieldCls_parts : fieldCls (cls ++ z6 ++ data ++ addr) = cls := by
  refine BitVec.eq_of_getLsbD_eq fun i hi => ?_
  simp only [fieldCls, BitVec.getLsbD_extractLsb', BitVec.getLsbD_append]
  simp [hi, show ¬ 30 + i < 16 by omega, show ¬ 30 + i - 16 < 8 by omega, show ¬ 30 + i - 16 - 8 < 6 by omega,
    show 30 + i - 16 - 8 - 6 = i by omega]

@[simp] theorem fieldZ6_parts : fieldZ6 (cls ++ z6 ++ data ++ addr) = z6 := by
  refine BitVec.eq_of_getLsbD_eq fun i hi => ?_
  simp only [fieldZ6, BitVec.getLsbD_extractLsb', BitVec.getLsbD_append]
  simp [hi, show ¬ 24 + i < 16 by omega, show ¬ 24 + i - 16 < 8 by omega, show 24 + i - 16 - 8 = i by omega]

@[simp] theorem fieldData_parts : fieldData (cls ++ z6 ++ data ++ addr) = data := by
  refine BitVec.eq_of_getLsbD_eq fun i hi => ?_
  simp only [fieldData, BitVec.getLsbD_extractLsb', BitVec.getLsbD_append]
  simp [hi]

@[simp] theorem fieldAddr_parts : fieldAddr (cls ++ z6 ++ data ++ addr) = addr := by
  refine BitVec.eq_of_getLsbD_eq fun i hi => ?_
  simp only [fieldAddr, BitVec.getLsbD_extractLsb', BitVec.getLsbD_append]
  simp [hi]

@[simp] theorem fieldCls_adv : fieldCls (cls ++ n) = cls := by
  refine BitVec.eq_of_getLsbD_eq fun i hi => ?_
  simp only [fieldCls, BitVec.getLsbD_extractLsb', BitVec.getLsbD_append]
  simp [hi]

@[simp] theorem fieldN_adv : fieldN (cls ++ n) = n := by
  refine BitVec.eq_of_getLsbD_eq fun i hi => ?_
  simp only [fieldN, BitVec.getLsbD_extractLsb', BitVec.getLsbD_append]
  simp [hi]

/-- A word is its four fields put together. -/
theorem word_parts (w : TxnWord) : w = fieldCls w ++ fieldZ6 w ++ fieldData w ++ fieldAddr w := by
  refine BitVec.eq_of_getLsbD_eq fun i hi => ?_
  simp only [fieldCls, fieldZ6, fieldData, fieldAddr, BitVec.getLsbD_extractLsb', BitVec.getLsbD_append]
  by_cases h1 : i < 16
  · simp [h1]
  · by_cases h2 : i - 16 < 8
    · simp [h1, h2, show 16 + (i - 16) = i by omega]
    · by_cases h3 : i - 16 - 8 < 6
      · simp [h1, h2, h3, show 24 + (i - 16 - 8) = i by omega]
      · simp [h1, h2, h3, show i - 16 - 8 - 6 < 2 by omega, show 30 + (i - 16 - 8 - 6) = i by omega]

/-- A word is its class and its cycle count put together. -/
theorem word_adv_parts (w : TxnWord) : w = fieldCls w ++ fieldN w := by
  refine BitVec.eq_of_getLsbD_eq fun i hi => ?_
  simp only [fieldCls, fieldN, BitVec.getLsbD_extractLsb', BitVec.getLsbD_append]
  by_cases h1 : i < 30
  · simp [h1]
  · simp [h1, show i - 30 < 2 by omega, show 30 + (i - 30) = i by omega]

end Fields

/-! ## Address decode (R85) -/

@[simp] theorem regAt_regAddr (r : Reg) : regAt (regAddr r) = some r := by cases r <;> rfl

theorem regAt_some {a : Addr} {r : Reg} (h : regAt a = some r) : a = regAddr r := by
  have := List.find?_some h
  simpa using (beq_iff_eq.1 this).symm

/-- The register range, as numbers (R21). -/
theorem regAddr_range (r : Reg) : 0xFF40 ≤ (regAddr r).toNat ∧ (regAddr r).toNat ≤ 0xFF4B := by
  cases r <;> decide

/-- Every address of the register range is a register's. -/
theorem regAt_range (a : Addr) (h1 : 0xFF40 ≤ a.toNat) (h2 : a.toNat ≤ 0xFF4B) : ∃ r, regAt a = some r := by
  have h : a = BitVec.ofNat 16 a.toNat := by simp
  generalize a.toNat = k at h h1 h2
  subst h
  interval_cases k <;> exact ⟨_, rfl⟩

theorem regAt_none_iff (a : Addr) : regAt a = none ↔ a.toNat < 0xFF40 ∨ 0xFF4B < a.toNat := by
  constructor
  · intro h
    by_contra hc
    obtain ⟨r, hr⟩ := regAt_range a (by omega) (by omega)
    rw [h] at hr
    exact absurd hr (by simp)
  · intro h
    cases hr : regAt a with
    | none => rfl
    | some r =>
      have := regAddr_range r
      rw [← regAt_some hr] at this
      omega

theorem oamBaseFits_iff (base : Addr) : oamBaseFits base = true ↔
    (base.toNat + 160 ≤ 0x8000 ∨ 0xA000 ≤ base.toNat) ∧
      (base.toNat + 160 ≤ 0xFF40 ∨ 0xFF4C ≤ base.toNat ∧ base.toNat + 160 ≤ 0x10000) := by
  simp [oamBaseFits]

theorem targetAt_reg (base : Addr) (r : Reg) : targetAt base (regAddr r) = some (.reg r) := by
  simp [targetAt]

theorem vramAddr_toNat (o : Fin 8192) : (vramAddr o).toNat = 0x8000 + o.val := by
  have := o.isLt
  simp only [vramAddr, BitVec.toNat_ofNat]
  omega

theorem targetAt_vram (base : Addr) (o : Fin 8192) : targetAt base (vramAddr o) = some (.vram o) := by
  have ho := o.isLt
  have ha := vramAddr_toNat o
  unfold targetAt
  rw [(regAt_none_iff _).2 (by omega)]
  simp [ha]
  omega

theorem oamAddr_toNat (base : Addr) (o : Fin 160) (h : oamBaseFits base = true) :
    (oamAddr base o).toNat = base.toNat + o.val := by
  have := (oamBaseFits_iff base).1 h
  have := o.isLt
  simp only [oamAddr, BitVec.toNat_ofNat]
  omega

theorem targetAt_oam (base : Addr) (o : Fin 160) (h : oamBaseFits base = true) :
    targetAt base (oamAddr base o) = some (.oam o) := by
  have hf := (oamBaseFits_iff base).1 h
  have ho := o.isLt
  have ha := oamAddr_toNat base o h
  unfold targetAt
  rw [(regAt_none_iff _).2 (by omega)]
  simp only [ha]
  rw [dif_neg (by omega), dif_pos (by omega)]
  simp

/-- The bus address of a target (R21, R41, R42). -/
def targetAddr (base : Addr) : Target → Addr
  | .reg r => regAddr r
  | .vram o => vramAddr o
  | .oam o => oamAddr base o

/-- What an address reaches determines the address. -/
theorem targetAt_some {base a : Addr} {x : Target} (h : targetAt base a = some x) : a = targetAddr base x := by
  unfold targetAt at h
  split at h
  next r hr =>
    cases h
    exact regAt_some hr
  next =>
    split at h
    next hv =>
      cases h
      refine BitVec.eq_of_toNat_eq ?_
      simp only [targetAddr, vramAddr_toNat]
      omega
    next =>
      split at h
      next ho =>
        cases h
        refine BitVec.eq_of_toNat_eq ?_
        have := a.isLt
        simp only [targetAddr, oamAddr, BitVec.toNat_ofNat]
        omega
      next => cases h

/-- Which addresses reach nothing (R87 d). -/
theorem targetAt_none_iff (base a : Addr) : targetAt base a = none ↔
    (a.toNat < 0xFF40 ∨ 0xFF4B < a.toNat) ∧ (a.toNat < 0x8000 ∨ 0xA000 ≤ a.toNat) ∧
      (a.toNat < base.toNat ∨ base.toNat + 160 ≤ a.toNat) := by
  unfold targetAt
  split
  next r hr =>
    have := regAddr_range r
    rw [← regAt_some hr] at this
    simp
    omega
  next hr =>
    rw [regAt_none_iff] at hr
    split
    next => simp; omega
    next =>
      split
      next => simp; omega
      next => simp; omega

/-! ## Decoding a word made of its parts -/

/-- Decoding, class by class, of a word made of its four parts (R80-R88). -/
theorem decodeAt_parts (base : Addr) (cls : BitVec 2) (z6 : BitVec 6) (data : Byte) (addr : Addr) (src : DmaBlock) :
    decodeAt base ⟨cls ++ z6 ++ data ++ addr, src⟩ =
      if cls = clsReserved then .refused .reservedClass
      else if cls = clsAdv then .instr (.advance (fieldN (cls ++ z6 ++ data ++ addr)).toNat)
      else if z6 ≠ 0 then .refused .reservedBits
      else if cls = clsRd ∧ data ≠ 0 then .refused .reservedBits
      else
        match targetAt base addr with
        | none => .refused .unmappedAddress
        | some x => if cls = clsRd then .instr (readOf x) else .instr (writeOf data src x) := by
  simp only [decodeAt, fieldCls_parts, fieldZ6_parts, fieldData_parts, fieldAddr_parts]
  all_goals rfl

theorem decodeAt_rdWord (base a : Addr) (src : DmaBlock) (x : Target) (h : targetAt base a = some x) :
    decodeAt base ⟨rdWord a, src⟩ = .instr (readOf x) := by
  rw [rdWord, decodeAt_parts, h]
  rfl

theorem decodeAt_wrWord (base a : Addr) (data : Byte) (src : DmaBlock) (x : Target) (h : targetAt base a = some x) :
    decodeAt base ⟨wrWord a data, src⟩ = .instr (writeOf data src x) := by
  rw [wrWord, decodeAt_parts, h]
  rfl

theorem decodeAt_advWord (base : Addr) (n : BitVec 30) (src : DmaBlock) :
    decodeAt base ⟨advWord n, src⟩ = .instr (.advance n.toNat) := by
  simp only [decodeAt, advWord, fieldCls_adv, fieldN_adv]
  rfl

/-- A read word with its upper half written as one number. -/
theorem rdWord_eq (a : Addr) : (0 : BitVec 16) ++ a = rdWord a := rfl

/-- The upper byte of a write word: CLS and Z6 together (R80, R82). -/
theorem wrWord_eq (a : Addr) (data : Byte) : (0x40 : BitVec 8) ++ data ++ a = wrWord a data := rfl

/-- The encoded read of a target. -/
theorem encodeAt_readOf (base : Addr) (x : Target) :
    encodeAt base (readOf x) = bareTxn (rdWord (targetAddr base x)) := by
  rcases x with r | o | o
  · cases r <;> rfl
  · rfl
  · rfl

/-- The encoded write of a target. -/
theorem encodeAt_writeOf_word (base : Addr) (data : Byte) (src : DmaBlock) (x : Target) :
    (encodeAt base (writeOf data src x)).word = wrWord (targetAddr base x) data := by
  rcases x with r | o | o
  · cases r <;> rfl
  · rfl
  · rfl

end Sys2Proof
end

