-- ==== Sys2Proof/Laws/Exec.lean ====
section
/-! SUPPORT. What `exec` answers for each transaction, as a next state put together from the named operations: proofs cite
these instead of unfolding `exec`. -/

namespace Sys2Proof.Machine

variable (s : State) (v : Byte)

theorem exec_rdLcdc : exec .rdLcdc s = .next (s.returnByte (s.busRead .lcdc)) := rfl
theorem exec_rdStat : exec .rdStat s = .next (s.returnByte (s.busRead .stat)) := rfl
theorem exec_rdScy : exec .rdScy s = .next (s.returnByte (s.busRead .scy)) := rfl
theorem exec_rdScx : exec .rdScx s = .next (s.returnByte (s.busRead .scx)) := rfl
theorem exec_rdLy : exec .rdLy s = .next (s.returnByte (s.busRead .ly)) := rfl
theorem exec_rdLyc : exec .rdLyc s = .next (s.returnByte (s.busRead .lyc)) := rfl
theorem exec_rdDma : exec .rdDma s = .next (s.returnByte (s.busRead .dma)) := rfl
theorem exec_rdBgp : exec .rdBgp s = .next (s.returnByte (s.busRead .bgp)) := rfl
theorem exec_rdObp0 : exec .rdObp0 s = .next (s.returnByte (s.busRead .obp0)) := rfl
theorem exec_rdObp1 : exec .rdObp1 s = .next (s.returnByte (s.busRead .obp1)) := rfl
theorem exec_rdWy : exec .rdWy s = .next (s.returnByte (s.busRead .wy)) := rfl
theorem exec_rdWx : exec .rdWx s = .next (s.returnByte (s.busRead .wx)) := rfl
theorem exec_wrLcdc : exec (.wrLcdc v) s = .next (s.busWrite .lcdc v) := rfl
theorem exec_wrStat : exec (.wrStat v) s = .next (s.busWrite .stat v) := rfl
theorem exec_wrScy : exec (.wrScy v) s = .next (s.busWrite .scy v) := rfl
theorem exec_wrScx : exec (.wrScx v) s = .next (s.busWrite .scx v) := rfl
theorem exec_wrLy : exec (.wrLy v) s = .next s := rfl
theorem exec_wrLyc : exec (.wrLyc v) s = .next (s.busWrite .lyc v) := rfl
theorem exec_wrDma (src : DmaBlock) : exec (.wrDma v src) s =
    .next (((s.busWrite .dma v).emit [.dmaRequest v]).dmaCopy src) := rfl
theorem exec_wrBgp : exec (.wrBgp v) s = .next (s.busWrite .bgp v) := rfl
theorem exec_wrObp0 : exec (.wrObp0 v) s = .next (s.busWrite .obp0 v) := rfl
theorem exec_wrObp1 : exec (.wrObp1 v) s = .next (s.busWrite .obp1 v) := rfl
theorem exec_wrWy : exec (.wrWy v) s = .next (s.busWrite .wy v) := rfl
theorem exec_wrWx : exec (.wrWx v) s = .next (s.busWrite .wx v) := rfl
theorem exec_rdVram (o : Fin 8192) : exec (.rdVram o) s = .next (s.returnByte (s.memReadVram o.val)) := rfl
theorem exec_wrVram (o : Fin 8192) : exec (.wrVram o v) s = .next (s.memWriteVram o.val v) := rfl
theorem exec_rdOam (o : Fin 160) : exec (.rdOam o) s = .next (s.returnByte (s.memReadOam o.val)) := rfl
theorem exec_wrOam (o : Fin 160) : exec (.wrOam o v) s = .next (s.memWriteOam o.val v) := rfl
theorem exec_advance (n : Nat) : exec (.advance n) s = .next (s.advance n) := rfl

/-! ## The gate, bit by bit (R35, R220, R226) -/

/-- The effective mode with the LCD on and off (R35). -/
theorem State.modeEff_eq : s.modeEff = if s.lcdOn then s.modeSt else .hblank := rfl

/-- OAM is closed exactly with the LCD on in a mode whose number has bit 1 set: 2 and 3. -/
theorem State.oamOpen_modeEff : oamOpen s.modeEff = !(s.lcdOn && (s.reg .stat).getLsbD 1) := by
  have h : ∀ v : Byte, oamOpen (statMode v) = !v.getLsbD 1 := by decide +kernel
  rw [State.modeEff_eq]
  cases s.lcdOn
  · rfl
  · simpa [State.modeSt] using h (s.reg .stat)

/-- STAT modulo 4 is the number of the stored mode (R34). -/
theorem toNat_mod_four (w : Byte) : w.toNat % 4 = (modeBits (statMode w)).toNat := by
  simp [statMode, BitVec.extractLsb'_toNat]

/-- The low bits of a STAT read (R182). -/
theorem statReadValue_low (lcdc stat : Byte) (i : Nat) (h : i < 2) :
    (statReadValue lcdc stat).getLsbD i = (lcdEnable lcdc && stat.getLsbD i) := by
  unfold statReadValue effectiveMode
  cases lcdEnable lcdc
  · simp only [statWithMode, BitVec.getLsbD_append]
    simp [h, modeBits]
  · simp

/-! ## ADVANCE on the parts of the state -/

/-- An ADVANCE too short for a dot step. -/
theorem State.advance_short (n : Nat) (hl : s.lcdOn = true) (h : s.acc + n < 4) :
    s.advance n = s.lycCheck.setAcc (s.acc + n) := by
  rw [State.advance_on _ _ hl, Nat.div_eq_of_lt h, Nat.mod_eq_of_lt h]
  rfl

/-- An ADVANCE of exactly one dot step. -/
theorem State.advance_one (n : Nat) (hl : s.lcdOn = true) (h : 4 ≤ s.acc + n) (h' : s.acc + n < 8) :
    s.advance n = s.lycCheck.dotStep.setAcc (s.acc + n - 4) := by
  rw [State.advance_on _ _ hl, show (s.acc + n) / 4 = 1 by omega, show (s.acc + n) % 4 = s.acc + n - 4 by omega]
  rfl

/-- R118 for the registers but STAT and LY. -/
theorem State.advance_reg (n : Nat) (q : Reg) (h1 : q ≠ .ly) (h2 : q ≠ .stat) : (s.advance n).reg q = s.reg q :=
  s.advance_keeps (P := fun t => t.reg q = s.reg q) (fun t h => by rw [State.lycCheck_reg_other _ _ h2, h])
    (fun t h => by rw [State.dotStep_reg_other _ _ h1 h2, h]) (fun _ h _ _ => h) n rfl

/-- R118 for STAT[7:3]. -/
theorem State.advance_stat_high (n i : Nat) (h : 3 ≤ i) :
    ((s.advance n).reg .stat).getLsbD i = (s.reg .stat).getLsbD i :=
  s.advance_keeps (P := fun t => (t.reg .stat).getLsbD i = (s.reg .stat).getLsbD i)
    (fun t ht => by rw [State.lycCheck_reg_stat, statWithCoincidence_other _ _ _ (by omega), ht])
    (fun t ht => by rw [State.dotStep_reg_stat, statWithMode_high _ _ _ (by omega), ht]) (fun _ h _ _ => h) n rfl

/-- Dot steps only append to the trace (R44). -/
theorem State.dotSteps_grow (k : Nat) : ∃ es, (State.dotStep^[k] s).trace = s.trace ++ es := by
  induction k generalizing s with
  | zero => exact ⟨[], by simp⟩
  | succ k ih =>
    obtain ⟨es, h⟩ := ih s.dotStep
    rw [Function.iterate_succ_apply, h, State.dotStep_trace, List.append_assoc]
    exact ⟨_, rfl⟩

/-- ADVANCE only appends to the trace (R44). -/
theorem State.advance_grows (n : Nat) : ∃ es, (s.advance n).trace = s.trace ++ es :=
  s.advance_keeps (P := fun t => ∃ es, t.trace = s.trace ++ es)
    (fun t ⟨es, h⟩ => ⟨es ++ lycEvents t, by simp [h]⟩)
    (fun t ⟨es, h⟩ => ⟨_, by rw [State.dotStep_trace, h, List.append_assoc]⟩)
    (fun _ h _ _ => h) n ⟨[], by simp⟩

end Sys2Proof.Machine
end

