-- ==== Sys2Proof/Laws/Frame.lean ====
section
/-! SUPPORT. The position (LY, dot) under dot steps: the place in the frame, the mode of a position, the events and the
rows of a dot step as functions of the new position. Proofs about lines and frames cite these. -/

namespace Sys2Proof.Machine

variable (s : State)

/-! ## The mode of a position (R105) -/

/-- The number of the mode of a position. -/
theorem target_number (l d : Nat) : (modeBits (target l d)).toNat =
    if 144 ≤ l then 1 else if d < 80 then 2 else if d < 252 then 3 else 0 := by
  unfold target
  repeat' split
  all_goals rfl

/-- Modes with one number are one mode (R34). -/
theorem modeBits_inj (a b : Mode) : (modeBits a).toNat = (modeBits b).toNat ↔ a = b := by
  cases a <;> cases b <;> decide

theorem target_drawing_iff (l d : Nat) : target l d = .drawing ↔ l < 144 ∧ 80 ≤ d ∧ d < 252 := by
  rw [← modeBits_inj, target_number]
  simp only [modeBits]
  repeat' split
  all_goals simp; omega

theorem target_oamScan_iff (l d : Nat) : target l d = .oamScan ↔ l < 144 ∧ d < 80 := by
  rw [← modeBits_inj, target_number]
  simp only [modeBits]
  repeat' split
  all_goals simp; omega

theorem target_hblank_iff (l d : Nat) : target l d = .hblank ↔ l < 144 ∧ 252 ≤ d := by
  rw [← modeBits_inj, target_number]
  simp only [modeBits]
  repeat' split
  all_goals simp; omega

theorem target_vblank_iff (l d : Nat) : target l d = .vblank ↔ 144 ≤ l := by
  rw [← modeBits_inj, target_number]
  simp only [modeBits]
  repeat' split
  all_goals simp; omega

/-! ## The move of the position (R111, R112) -/

theorem nextDot_eq (d : Nat) : nextDot d = if 456 ≤ d + 4 then 0 else d + 4 := rfl

theorem nextLy_toNat (d : Nat) (ly : Byte) (h : ly.toNat ≤ 153) : (nextLy d ly).toNat =
    if 456 ≤ d + 4 then (if ly.toNat = 153 then 0 else ly.toNat + 1) else ly.toNat := by
  unfold nextLy
  simp only [Config.dotsPerLine, Config.dotsPerStep, Config.lastLine]
  split
  · split
    · rw [if_pos (by omega)]; rfl
    · rw [if_neg (by omega), BitVec.toNat_add]; simp; omega
  · rfl

/-- The place in the frame, in dots from line 0 dot 0. -/
def State.place (s : State) : Nat := 456 * s.line + s.dot

/-- A position R46 allows: dot a multiple of 4 up to 452, LY up to 153. -/
structure State.InFrame (s : State) : Prop where
  dot_step : s.dot % 4 = 0
  dot_le : s.dot ≤ 452
  line_le : s.line ≤ 153

theorem State.Inv.inFrame {s : State} (h : s.Inv) : s.InFrame := ⟨h.dot_step, h.dot_le, h.line_le⟩

theorem State.InFrame.lycCheck {s : State} (h : s.InFrame) : s.lycCheck.InFrame := ⟨h.dot_step, h.dot_le, h.line_le⟩

/-- Where a dot step goes: 4 dots on, or to the start of the next line, or to the start of the frame. -/
theorem State.dotStep_position (h : s.line ≤ 153) :
    (s.dot + 4 < 456 ∧ s.dotStep.dot = s.dot + 4 ∧ s.dotStep.line = s.line) ∨
    (456 ≤ s.dot + 4 ∧ s.line < 153 ∧ s.dotStep.dot = 0 ∧ s.dotStep.line = s.line + 1) ∨
    (456 ≤ s.dot + 4 ∧ s.line = 153 ∧ s.dotStep.dot = 0 ∧ s.dotStep.line = 0) := by
  have hl : s.dotStep.line = if 456 ≤ s.dot + 4 then (if s.line = 153 then 0 else s.line + 1) else s.line := by
    rw [State.dotStep_line]
    exact nextLy_toNat s.dot (s.reg .ly) h
  have hd : s.dotStep.dot = if 456 ≤ s.dot + 4 then 0 else s.dot + 4 := s.dotStep_dot
  rw [hl, hd]
  repeat' split
  all_goals omega

/-- One dot step stays in the frame and moves 4 dots on in it. -/
theorem State.dotStep_place (h : s.InFrame) : s.dotStep.InFrame ∧ s.dotStep.place = (s.place + 4) % 70224 := by
  obtain ⟨h0, h1, h2⟩ := h
  have hp := s.dotStep_position h2
  exact ⟨⟨by omega, by omega, by omega⟩, by unfold State.place; omega⟩

/-- So do many. -/
theorem State.dotSteps_place (k : Nat) (h : s.InFrame) :
    (State.dotStep^[k] s).InFrame ∧ (State.dotStep^[k] s).place = (s.place + 4 * k) % 70224 := by
  induction k with
  | zero =>
    refine ⟨h, ?_⟩
    have := h.dot_le
    have := h.line_le
    simp only [Function.iterate_zero, id, State.place]
    omega
  | succ k ih =>
    rw [Function.iterate_succ_apply']
    obtain ⟨p, q⟩ := State.dotStep_place _ ih.1
    refine ⟨p, ?_⟩
    rw [q, ih.2]
    omega

/-! ## The stored mode of the position -/

theorem State.Synced.lycCheck {s : State} (h : s.Synced) : s.lycCheck.Synced := by
  unfold State.Synced at *
  simpa using h

theorem State.Synced.dotSteps {s : State} (k : Nat) (h : s.Synced) : (State.dotStep^[k] s).Synced := by
  cases k with
  | zero => exact h
  | succ k => rw [Function.iterate_succ_apply']; exact State.dotStep_synced _

/-! ## What a dot step in step with its position does (R106) -/

/-- From a synced state a dot step renders a row exactly where it arrives at dot 80 of a visible line. -/
theorem State.dotStep_fb_synced (h : s.InFrame) (hs : s.Synced) : s.dotStep.fb =
    if s.dotStep.line < 144 ∧ s.dotStep.dot = 80 then
      sparseWrite unlistedRow s.fb s.dotStep.line (renderRow s.regs s.vram s.dotStep.line)
    else s.fb := by
  obtain ⟨h0, h1, h2⟩ := h
  have hp := s.dotStep_position h2
  have e := s.dotStep_fb
  rw [← State.dotStep_line, ← State.dotStep_dot] at e
  rw [e]
  refine if_congr ?_ rfl rfl
  rw [show s.modeSt = _ from hs, ne_eq, target_drawing_iff, target_drawing_iff]
  omega

/-- The events of a dot step that arrives at a place in step with the modes. -/
def arrivalEvents (stat : Byte) (line dot : Nat) : List Event :=
  if line < 144 ∧ dot = 0 then lcdStatIf (oamScanIrqEnable stat)
  else if line < 144 ∧ dot = 252 then lcdStatIf (hblankIrqEnable stat)
  else if line = 144 ∧ dot = 0 then
    .interrupt .vblank :: (lcdStatIf (vblankIrqEnable stat) ++ [.notifyVblankEntry])
  else []

/-- From a synced state a dot step's events are those of the place it arrives at. -/
theorem State.dotStep_trace_synced (h : s.InFrame) (hs : s.Synced) :
    s.dotStep.trace = s.trace ++ arrivalEvents (s.reg .stat) s.dotStep.line s.dotStep.dot := by
  obtain ⟨h0, h1, h2⟩ := h
  have hp := s.dotStep_position h2
  have e := s.dotStep_trace
  rw [← State.dotStep_line, ← State.dotStep_dot, show s.modeSt = _ from hs] at e
  rw [e]
  congr 1
  generalize s.dotStep.line = l at *
  generalize s.dotStep.dot = d at *
  unfold arrivalEvents
  by_cases hc : target l d = target s.line s.dot
  · -- no mode is entered
    have h1 := target_oamScan_iff l d
    have h2 := target_hblank_iff l d
    have h3 := target_vblank_iff l d
    rw [hc] at h1 h2 h3
    rw [target_oamScan_iff] at h1
    rw [target_hblank_iff] at h2
    rw [target_vblank_iff] at h3
    rw [if_pos hc, if_neg (by omega), if_neg (by omega), if_neg (by omega)]
  · rw [if_neg hc]
    cases ht : target l d
    · have h2 : target s.line s.dot ≠ .hblank := fun h => hc (ht.trans h.symm)
      rw [ne_eq, target_hblank_iff] at h2
      rw [target_hblank_iff] at ht
      rw [if_neg (by omega), if_pos (by omega)]; rfl
    · have h2 : target s.line s.dot ≠ .vblank := fun h => hc (ht.trans h.symm)
      rw [ne_eq, target_vblank_iff] at h2
      rw [target_vblank_iff] at ht
      rw [if_neg (by omega), if_neg (by omega), if_pos (by omega)]; rfl
    · have h2 : target s.line s.dot ≠ .oamScan := fun h => hc (ht.trans h.symm)
      rw [ne_eq, target_oamScan_iff] at h2
      rw [target_oamScan_iff] at ht
      rw [if_pos (by omega)]; rfl
    · rw [target_drawing_iff] at ht
      rw [if_neg (by omega), if_neg (by omega), if_neg (by omega)]; rfl

/-! ## Many dot steps -/

theorem State.dotSteps_vram (k : Nat) : (State.dotStep^[k] s).vram = s.vram := by
  induction k with
  | zero => rfl
  | succ k ih => rw [Function.iterate_succ_apply', State.dotStep_vram, ih]

/-- A dot step writes LY and STAT and no other register (R118). -/
theorem State.dotStep_regs : ∃ a b, s.dotStep.regs = (s.regs.set .ly a).set .stat b := by
  rcases s.tick.settle_cases with ⟨-, h⟩ | ⟨-, h⟩
  · refine ⟨nextLy s.dot (s.reg .ly), s.reg .stat, ?_⟩
    rw [State.dotStep, h]
    rfl
  · refine ⟨nextLy s.dot (s.reg .ly), statWithMode (s.tick.reg .stat) (target s.tick.line s.tick.dot), ?_⟩
    rw [State.dotStep, h, State.enterMode_regs]
    rfl

theorem State.dotSteps_regs (k : Nat) : ∃ a b, (State.dotStep^[k] s).regs = (s.regs.set .ly a).set .stat b := by
  induction k with
  | zero => exact ⟨s.reg .ly, s.reg .stat, rfl⟩
  | succ k ih =>
    obtain ⟨a, b, h⟩ := ih
    obtain ⟨a', b', h'⟩ := (State.dotStep^[k] s).dotStep_regs
    rw [Function.iterate_succ_apply', h', h]
    exact ⟨a', b', rfl⟩

/-- Dot steps do not change what a row would be rendered as. -/
theorem State.dotSteps_renderRow (k y : Nat) :
    renderRow (State.dotStep^[k] s).regs (State.dotStep^[k] s).vram y = renderRow s.regs s.vram y := by
  obtain ⟨a, b, h⟩ := s.dotSteps_regs k
  rw [h, State.dotSteps_vram]
  rfl

/-- Dot steps keep STAT[7:2]. -/
theorem State.dotSteps_stat_high (k i : Nat) (h : 2 ≤ i) :
    ((State.dotStep^[k] s).reg .stat).getLsbD i = (s.reg .stat).getLsbD i := by
  induction k with
  | zero => rfl
  | succ k ih => rw [Function.iterate_succ_apply', State.dotStep_reg_stat, statWithMode_high _ _ _ h, ih]

/-- Row `y` after dot steps from a synced state: rendered if they arrived at dot 80 of line `y`, as before if not. -/
theorem State.dotSteps_row (h : s.InFrame) (hs : s.Synced) (k y : Nat) (hy : y < 144) :
    ((∃ j, 1 ≤ j ∧ j ≤ k ∧ (s.place + 4 * j) % 70224 = 456 * y + 80) →
      (State.dotStep^[k] s).fb.row y = renderRow s.regs s.vram y) ∧
    ((∀ j, 1 ≤ j → j ≤ k → (s.place + 4 * j) % 70224 ≠ 456 * y + 80) →
      (State.dotStep^[k] s).fb.row y = s.fb.row y) := by
  induction k with
  | zero => exact ⟨fun ⟨j, a, b, _⟩ => by omega, fun _ => rfl⟩
  | succ k ih =>
    have hf := s.dotSteps_place k h
    have e := State.dotStep_fb_synced _ hf.1 (hs.dotSteps k)
    have hf' := s.dotSteps_place (k + 1) h
    rw [State.dotSteps_renderRow] at e
    rw [Function.iterate_succ_apply'] at hf' ⊢
    generalize State.dotStep^[k] s = t at *
    have hl := hf'.1.line_le
    have hd := hf'.1.dot_le
    have hp : 456 * t.dotStep.line + t.dotStep.dot = (s.place + 4 * (k + 1)) % 70224 := hf'.2
    by_cases hc : (s.place + 4 * (k + 1)) % 70224 = 456 * y + 80
    · refine ⟨fun _ => ?_, fun hh => absurd hc (hh _ (by omega) le_rfl)⟩
      have h1 : t.dotStep.line = y := by omega
      rw [e, if_pos (by omega), h1, FrameBuffer.row, sparseRead_write, if_pos rfl]
    · have hr : t.dotStep.fb.row y = t.fb.row y := by
        rw [e]
        split
        · rw [FrameBuffer.row, sparseRead_write, if_neg (by omega)]
          rfl
        · rfl
      rw [hr]
      refine ⟨fun ⟨j, a, b, c⟩ => ih.1 ⟨j, a, ?_, c⟩, fun hh => ih.2 fun j a b => hh j a (by omega)⟩
      rcases Nat.lt_or_ge j (k + 1) with h | h
      · omega
      · exact absurd ((show j = k + 1 by omega) ▸ c) hc

/-- Dot steps that arrive at dot 80 of no visible line leave the frame buffer as it is. -/
theorem State.dotSteps_fb_same (h : s.InFrame) (hs : s.Synced) (k : Nat)
    (hn : ∀ j, 1 ≤ j → j ≤ k → ∀ y, y < 144 → (s.place + 4 * j) % 70224 ≠ 456 * y + 80) :
    (State.dotStep^[k] s).fb = s.fb := by
  induction k with
  | zero => rfl
  | succ k ih =>
    have hf := s.dotSteps_place k h
    have e := State.dotStep_fb_synced _ hf.1 (hs.dotSteps k)
    have hf' := s.dotSteps_place (k + 1) h
    rw [Function.iterate_succ_apply'] at hf' ⊢
    have hp : 456 * (State.dotStep^[k] s).dotStep.line + (State.dotStep^[k] s).dotStep.dot =
      (s.place + 4 * (k + 1)) % 70224 := hf'.2
    rw [e, if_neg fun hc => hn (k + 1) (by omega) le_rfl _ hc.1 (by omega), ih fun j a b => hn j a (by omega)]

end Sys2Proof.Machine
end

