-- ==== Sys2Proof/Laws/PerInstr.lean ====
section
/-! SUPPORT. Per transaction: the encoded word has the fixed bits of its row of spec/opcode_table.json. One lemma per
constructor. -/

namespace Sys2Proof

/-- A run of fixed bits of an opcode-table row: bits hi:lo hold `value`. -/
structure FixedBits where
  hi : Nat
  lo : Nat
  value : Nat
deriving DecidableEq, Repr

/-- The fixed bits of a transaction's row, the column "fixed" of spec/opcode_table.json. -/
def tableFixed : Instr → List FixedBits
  | .rdLcdc => [⟨31, 0, 65344⟩]
  | .rdStat => [⟨31, 0, 65345⟩]
  | .rdScy => [⟨31, 0, 65346⟩]
  | .rdScx => [⟨31, 0, 65347⟩]
  | .rdLy => [⟨31, 0, 65348⟩]
  | .rdLyc => [⟨31, 0, 65349⟩]
  | .rdDma => [⟨31, 0, 65350⟩]
  | .rdBgp => [⟨31, 0, 65351⟩]
  | .rdObp0 => [⟨31, 0, 65352⟩]
  | .rdObp1 => [⟨31, 0, 65353⟩]
  | .rdWy => [⟨31, 0, 65354⟩]
  | .rdWx => [⟨31, 0, 65355⟩]
  | .wrLcdc _ => [⟨15, 0, 65344⟩, ⟨31, 24, 64⟩]
  | .wrStat _ => [⟨15, 0, 65345⟩, ⟨31, 24, 64⟩]
  | .wrScy _ => [⟨15, 0, 65346⟩, ⟨31, 24, 64⟩]
  | .wrScx _ => [⟨15, 0, 65347⟩, ⟨31, 24, 64⟩]
  | .wrLy _ => [⟨15, 0, 65348⟩, ⟨31, 24, 64⟩]
  | .wrLyc _ => [⟨15, 0, 65349⟩, ⟨31, 24, 64⟩]
  | .wrDma _ _ => [⟨15, 0, 65350⟩, ⟨31, 24, 64⟩]
  | .wrBgp _ => [⟨15, 0, 65351⟩, ⟨31, 24, 64⟩]
  | .wrObp0 _ => [⟨15, 0, 65352⟩, ⟨31, 24, 64⟩]
  | .wrObp1 _ => [⟨15, 0, 65353⟩, ⟨31, 24, 64⟩]
  | .wrWy _ => [⟨15, 0, 65354⟩, ⟨31, 24, 64⟩]
  | .wrWx _ => [⟨15, 0, 65355⟩, ⟨31, 24, 64⟩]
  | .rdVram _ => [⟨31, 13, 4⟩]
  | .wrVram _ _ => [⟨15, 13, 4⟩, ⟨31, 24, 64⟩]
  | .rdOam _ => [⟨31, 8, 254⟩]
  | .wrOam _ _ => [⟨15, 8, 254⟩, ⟨31, 24, 64⟩]
  | .advance _ => [⟨31, 30, 2⟩]

/-- A word holds the fixed bits. -/
abbrev FixedBits.In (f : FixedBits) (w : TxnWord) : Prop := w.toNat / 2 ^ f.lo % 2 ^ (f.hi + 1 - f.lo) = f.value

theorem rdWord_toNat (a : Addr) : (rdWord a).toNat = a.toNat := by
  have := a.isLt
  simp only [rdWord, clsRd, BitVec.toNat_append]
  rw [← Nat.shiftLeft_add_eq_or_of_lt a.isLt]
  simp

theorem wrWord_toNat (a : Addr) (d : Byte) : (wrWord a d).toNat = 2 ^ 30 + d.toNat * 2 ^ 16 + a.toNat := by
  have h1 := a.isLt
  have h2 := d.isLt
  simp only [wrWord, clsWr, BitVec.toNat_append]
  rw [← Nat.shiftLeft_add_eq_or_of_lt a.isLt, ← Nat.shiftLeft_add_eq_or_of_lt d.isLt]
  simp only [Nat.shiftLeft_eq]
  simp
  omega

theorem advWord_toNat (n : BitVec 30) : (advWord n).toNat = 2 ^ 31 + n.toNat := by
  simp only [advWord, clsAdv, BitVec.toNat_append]
  rw [← Nat.shiftLeft_add_eq_or_of_lt n.isLt]
  simp [Nat.shiftLeft_eq]

/-- A register read's word. -/
theorem rdWord_reg_fixed (r : Reg) : FixedBits.In ⟨31, 0, (regAddr r).toNat⟩ (rdWord (regAddr r)) := by
  cases r <;> decide

/-- A register write's word, whatever the byte. -/
theorem wrWord_reg_fixed (r : Reg) (d : Byte) : FixedBits.In ⟨15, 0, (regAddr r).toNat⟩ (wrWord (regAddr r) d) ∧
    FixedBits.In ⟨31, 24, 64⟩ (wrWord (regAddr r) d) := by
  have h1 := (regAddr r).isLt
  have h2 := d.isLt
  unfold FixedBits.In
  rw [wrWord_toNat]
  constructor <;> simp only <;> omega

namespace Laws.TableRow

/-- The encoded word holds the fixed bits of the transaction's row. -/
def Statement (i : Instr) : Prop := ∀ f ∈ tableFixed i, f.In (encode i).word

theorem rdLcdc : Statement .rdLcdc := by
  intro f hf
  obtain rfl := List.mem_singleton.1 hf
  exact rdWord_reg_fixed .lcdc
theorem rdStat : Statement .rdStat := by
  intro f hf
  obtain rfl := List.mem_singleton.1 hf
  exact rdWord_reg_fixed .stat
theorem rdScy : Statement .rdScy := by
  intro f hf
  obtain rfl := List.mem_singleton.1 hf
  exact rdWord_reg_fixed .scy
theorem rdScx : Statement .rdScx := by
  intro f hf
  obtain rfl := List.mem_singleton.1 hf
  exact rdWord_reg_fixed .scx
theorem rdLy : Statement .rdLy := by
  intro f hf
  obtain rfl := List.mem_singleton.1 hf
  exact rdWord_reg_fixed .ly
theorem rdLyc : Statement .rdLyc := by
  intro f hf
  obtain rfl := List.mem_singleton.1 hf
  exact rdWord_reg_fixed .lyc
theorem rdDma : Statement .rdDma := by
  intro f hf
  obtain rfl := List.mem_singleton.1 hf
  exact rdWord_reg_fixed .dma
theorem rdBgp : Statement .rdBgp := by
  intro f hf
  obtain rfl := List.mem_singleton.1 hf
  exact rdWord_reg_fixed .bgp
theorem rdObp0 : Statement .rdObp0 := by
  intro f hf
  obtain rfl := List.mem_singleton.1 hf
  exact rdWord_reg_fixed .obp0
theorem rdObp1 : Statement .rdObp1 := by
  intro f hf
  obtain rfl := List.mem_singleton.1 hf
  exact rdWord_reg_fixed .obp1
theorem rdWy : Statement .rdWy := by
  intro f hf
  obtain rfl := List.mem_singleton.1 hf
  exact rdWord_reg_fixed .wy
theorem rdWx : Statement .rdWx := by
  intro f hf
  obtain rfl := List.mem_singleton.1 hf
  exact rdWord_reg_fixed .wx
theorem wrLcdc (data : Byte) : Statement (.wrLcdc data) := by
  intro f hf
  rcases List.mem_pair.1 hf with rfl | rfl
  · exact (wrWord_reg_fixed .lcdc data).1
  · exact (wrWord_reg_fixed .lcdc data).2
theorem wrStat (data : Byte) : Statement (.wrStat data) := by
  intro f hf
  rcases List.mem_pair.1 hf with rfl | rfl
  · exact (wrWord_reg_fixed .stat data).1
  · exact (wrWord_reg_fixed .stat data).2
theorem wrScy (data : Byte) : Statement (.wrScy data) := by
  intro f hf
  rcases List.mem_pair.1 hf with rfl | rfl
  · exact (wrWord_reg_fixed .scy data).1
  · exact (wrWord_reg_fixed .scy data).2
theorem wrScx (data : Byte) : Statement (.wrScx data) := by
  intro f hf
  rcases List.mem_pair.1 hf with rfl | rfl
  · exact (wrWord_reg_fixed .scx data).1
  · exact (wrWord_reg_fixed .scx data).2
theorem wrLy (data : Byte) : Statement (.wrLy data) := by
  intro f hf
  rcases List.mem_pair.1 hf with rfl | rfl
  · exact (wrWord_reg_fixed .ly data).1
  · exact (wrWord_reg_fixed .ly data).2
theorem wrLyc (data : Byte) : Statement (.wrLyc data) := by
  intro f hf
  rcases List.mem_pair.1 hf with rfl | rfl
  · exact (wrWord_reg_fixed .lyc data).1
  · exact (wrWord_reg_fixed .lyc data).2
theorem wrDma (data : Byte) (src : DmaBlock) : Statement (.wrDma data src) := by
  intro f hf
  rcases List.mem_pair.1 hf with rfl | rfl
  · exact (wrWord_reg_fixed .dma data).1
  · exact (wrWord_reg_fixed .dma data).2
theorem wrBgp (data : Byte) : Statement (.wrBgp data) := by
  intro f hf
  rcases List.mem_pair.1 hf with rfl | rfl
  · exact (wrWord_reg_fixed .bgp data).1
  · exact (wrWord_reg_fixed .bgp data).2
theorem wrObp0 (data : Byte) : Statement (.wrObp0 data) := by
  intro f hf
  rcases List.mem_pair.1 hf with rfl | rfl
  · exact (wrWord_reg_fixed .obp0 data).1
  · exact (wrWord_reg_fixed .obp0 data).2
theorem wrObp1 (data : Byte) : Statement (.wrObp1 data) := by
  intro f hf
  rcases List.mem_pair.1 hf with rfl | rfl
  · exact (wrWord_reg_fixed .obp1 data).1
  · exact (wrWord_reg_fixed .obp1 data).2
theorem wrWy (data : Byte) : Statement (.wrWy data) := by
  intro f hf
  rcases List.mem_pair.1 hf with rfl | rfl
  · exact (wrWord_reg_fixed .wy data).1
  · exact (wrWord_reg_fixed .wy data).2
theorem wrWx (data : Byte) : Statement (.wrWx data) := by
  intro f hf
  rcases List.mem_pair.1 hf with rfl | rfl
  · exact (wrWord_reg_fixed .wx data).1
  · exact (wrWord_reg_fixed .wx data).2
theorem rdVram (offset : Fin 8192) : Statement (.rdVram offset) := by
  intro f hf
  obtain rfl := List.mem_singleton.1 hf
  show (rdWord (vramAddr offset)).toNat / _ % _ = _
  rw [rdWord_toNat, vramAddr_toNat]
  simp only
  omega
theorem wrVram (offset : Fin 8192) (data : Byte) : Statement (.wrVram offset data) := by
  intro f hf
  have h := data.isLt
  rcases List.mem_pair.1 hf with rfl | rfl
  all_goals
    show (wrWord (vramAddr offset) data).toNat / _ % _ = _
    rw [wrWord_toNat, vramAddr_toNat]
    simp only
    omega
theorem rdOam (offset : Fin 160) : Statement (.rdOam offset) := by
  intro f hf
  obtain rfl := List.mem_singleton.1 hf
  show (rdWord (oamAddr Config.oamBase offset)).toNat / _ % _ = _
  rw [rdWord_toNat, oamAddr_toNat _ _ (by decide), show Config.oamBase.toNat = 0xFE00 from rfl]
  simp only
  omega
theorem wrOam (offset : Fin 160) (data : Byte) : Statement (.wrOam offset data) := by
  intro f hf
  have h := data.isLt
  rcases List.mem_pair.1 hf with rfl | rfl
  all_goals
    show (wrWord (oamAddr Config.oamBase offset) data).toNat / _ % _ = _
    rw [wrWord_toNat, oamAddr_toNat _ _ (by decide), show Config.oamBase.toNat = 0xFE00 from rfl]
    simp only
    omega
theorem advance (cycles : Nat) : Statement (.advance cycles) := by
  intro f hf
  obtain rfl := List.mem_singleton.1 hf
  show (advWord (BitVec.ofNat 30 cycles)).toNat / _ % _ = _
  have := (BitVec.ofNat 30 cycles).isLt
  rw [advWord_toNat]
  simp only
  omega

end Laws.TableRow

end Sys2Proof
end

