-- ==== Sys2Proof/Laws/Render.lean ====
section
/-! SUPPORT. The laws of the renderer: each of its functions as plain arithmetic, and what a row depends on. Proofs about
pixels cite these instead of unfolding the renderer. -/

namespace Sys2Proof.Machine

/-- R143 as a VRAM offset. -/
theorem mapBase_offset (b : Bool) : mapBase b - 0x8000 = if b = true then 0x1C00 else 0x1800 := by cases b <;> rfl

/-- R148, R149 as a VRAM offset. -/
theorem rowOffset_eq (b : Bool) (idx : Byte) (y : Nat) : rowOffset (!b) idx y =
    (if b = true then 16 * idx.toNat else if idx.toNat < 128 then 0x1000 + 16 * idx.toNat else 16 * idx.toNat) +
      2 * (y % 8) := by
  have := idx.isLt
  unfold rowOffset tileAddr
  cases b
  · simp only [Bool.not_false, if_true, Bool.false_eq_true, if_false]
    rw [BitVec.toInt_eq_toNat_cond]
    split <;> split <;> omega
  · simp only [Bool.not_true, Bool.false_eq_true, if_false, if_true]
    omega

/-- R150 as a number. -/
theorem colorIndex_toNat (lo hi : Byte) (x : Nat) : (colorIndex lo hi x).toNat =
    2 * (hi.toNat / 2 ^ (7 - x % 8) % 2) + lo.toNat / 2 ^ (7 - x % 8) % 2 := by
  unfold colorIndex
  rw [BitVec.toNat_append, BitVec.toNat_ofBool, BitVec.toNat_ofBool, ← BitVec.testBit_toNat, ← BitVec.testBit_toNat,
    Nat.testBit_eq_decide_div_mod_eq, Nat.testBit_eq_decide_div_mod_eq]
  have a := Nat.mod_lt (hi.toNat / 2 ^ (7 - x % 8)) (show 0 < 2 by omega)
  have b := Nat.mod_lt (lo.toNat / 2 ^ (7 - x % 8)) (show 0 < 2 by omega)
  generalize hi.toNat / 2 ^ (7 - x % 8) % 2 = p at *
  generalize lo.toNat / 2 ^ (7 - x % 8) % 2 = q at *
  interval_cases p <;> interval_cases q <;> rfl

/-- R151 as a number. -/
theorem shade_toNat (bgp : Byte) (ci : BitVec 2) : (shade bgp ci).toNat = bgp.toNat / 2 ^ (2 * ci.toNat) % 4 := by
  unfold shade
  rw [BitVec.extractLsb'_toNat, Nat.shiftRight_eq_div_pow]

/-- R152 as a number. -/
theorem gray_toNat (sh : BitVec 2) : (gray sh).toNat = 255 - 85 * sh.toNat := by revert sh; decide

/-- When a pixel is a window pixel (R141, R144). -/
theorem isWindowPixel_iff (r : RegBank) (ly px : Nat) : isWindowPixel r ly px = true ↔
    r.lcdc.getLsbD 5 = true ∧ r.wy.toNat ≤ ly ∧ r.wx.toNat ≤ px + 7 := by
  simp [isWindowPixel, windowActive, winEnable, and_assoc]

/-- A row depends on SCX, SCY, WX, WY, BGP, LCDC[6:3] and VRAM, and on nothing else. -/
theorem renderRow_congr (r r' : RegBank) (vram : Memory) (ly : Nat) (hscx : r.scx = r'.scx) (hscy : r.scy = r'.scy)
    (hwx : r.wx = r'.wx) (hwy : r.wy = r'.wy) (hbgp : r.bgp = r'.bgp) (h3 : bgMapBit r.lcdc = bgMapBit r'.lcdc)
    (h4 : tileDataBit r.lcdc = tileDataBit r'.lcdc) (h5 : winEnable r.lcdc = winEnable r'.lcdc)
    (h6 : winMapBit r.lcdc = winMapBit r'.lcdc) : renderRow r vram ly = renderRow r' vram ly := by
  unfold renderRow
  refine List.map_congr_left fun px _ => ?_
  have hw : isWindowPixel r ly px = isWindowPixel r' ly px := by
    unfold isWindowPixel windowActive
    rw [h5, hwy, hwx]
  have hm : pixelMap r ly px = pixelMap r' ly px := by
    unfold pixelMap
    rw [hw, h3, h6]
  have hx : pixelX r ly px = pixelX r' ly px := by
    unfold pixelX
    rw [hw, hwx, hscx]
  have hy : pixelY r ly px = pixelY r' ly px := by
    unfold pixelY
    rw [hw, hwy, hscy]
  unfold renderPixel pixelColor pixelRow pixelTile
  rw [hm, hx, hy, h4, hbgp]

/-- Every entry the renderer makes is one of the four opaque grays (R159). -/
theorem grayPixel_mem (sh : BitVec 2) : grayPixel sh ∈ [(⟨0xFF, 0xFF, 0xFF, 0xFF⟩ : Pixel), ⟨0xAA, 0xAA, 0xAA, 0xFF⟩,
    ⟨0x55, 0x55, 0x55, 0xFF⟩, ⟨0x00, 0x00, 0x00, 0xFF⟩] := by revert sh; decide

end Sys2Proof.Machine
end

