-- ==== Sys2Proof/Tests/Slice0.lean ====
section
/-! SUPPORT. The model's own tests. Expected values come from spec/95_test_vectors.md (the vector's name stands in the
comment) or are worked by hand from the rules named. The last section gives, for each obligation with hypotheses, a state
and operands that meet them. -/

namespace Sys2Proof.Tests

open Sys2Proof Sys2Proof.Machine

/-! ## Small states -/

/-- Reset with the given LCDC, STAT, LY, LYC, dot counter and accumulator. -/
def st (lcdc stat ly lyc : Byte) (dot acc : Nat) : State :=
  { State.reset with
    regs := { State.reset.regs with lcdc := lcdc, stat := stat, ly := ly, lyc := lyc }, dot := dot, acc := acc }

/-- The gate vectors' buffers: VRAM[0x10] = 0x3C, OAM[0x05] = 0x7E, LCDC and STAT as given. -/
def gateSt (lcdc stat : Byte) : State := { st lcdc stat 0 0xFF 0 0 with vram := [(0x10, 0x3C)], oam := [(0x05, 0x7E)] }

/-- What a look at the next state sees, nothing where there is none. -/
def look {α : Type} (f : State → α) : Host.Outcome State Fault Refusal → Option α
  | .next t => some (f t)
  | .fault _ => none
  | .refused _ => none

/-- LY, dot, accumulator, STAT and the trace. -/
structure Seq where
  ly : Byte
  dot : Nat
  acc : Nat
  stat : Byte
  trace : List Event
deriving DecidableEq, Repr

/-- Those of a state. -/
def seq (t : State) : Seq := ⟨t.regs.ly, t.dot, t.acc, t.regs.stat, t.trace⟩

/-- The request LS of the vectors. -/
def ls : Event := .interrupt .lcdStat

/-! ## Well-formedness, and an ill-formed term for each check -/

theorem test_wellFormed_largest_cycles : (Instr.advance (2 ^ 30 - 1)).wellFormed = true := by decide
theorem test_illFormed_cycles : (Instr.advance (2 ^ 30)).wellFormed = false := by decide
theorem test_oamBase_default_fits : oamBaseFits 0xFE00 = true ∧ oamBaseFits 0x7F60 = true ∧ oamBaseFits 0xFF4C = true := by
  decide
theorem test_oamBase_misfits : oamBaseFits 0x7F61 = false ∧ oamBaseFits 0x9FFF = false ∧ oamBaseFits 0xFEA1 = false ∧
    oamBaseFits 0xFF4B = false ∧ oamBaseFits 0xFF61 = false := by decide

/-! ## Decode: one word per constructor, written out from R80 and R85 field by field: CLS, Z6, DATA, ADDR -/

/-- A RD word of R81. -/
def rd (addr : BitVec 16) : Txn := ⟨0b00#2 ++ 0b000000#6 ++ 0b00000000#8 ++ addr, zeroBlock⟩
/-- A WR word of R82. -/
def wr (addr : BitVec 16) (data : BitVec 8) : Txn := ⟨0b01#2 ++ 0b000000#6 ++ data ++ addr, zeroBlock⟩

theorem test_decode_register_reads :
    decode (rd 0b1111111101000000#16) = .instr .rdLcdc ∧ decode (rd 0b1111111101000001#16) = .instr .rdStat ∧
    decode (rd 0b1111111101000010#16) = .instr .rdScy ∧ decode (rd 0b1111111101000011#16) = .instr .rdScx ∧
    decode (rd 0b1111111101000100#16) = .instr .rdLy ∧ decode (rd 0b1111111101000101#16) = .instr .rdLyc ∧
    decode (rd 0b1111111101000110#16) = .instr .rdDma ∧ decode (rd 0b1111111101000111#16) = .instr .rdBgp ∧
    decode (rd 0b1111111101001000#16) = .instr .rdObp0 ∧ decode (rd 0b1111111101001001#16) = .instr .rdObp1 ∧
    decode (rd 0b1111111101001010#16) = .instr .rdWy ∧ decode (rd 0b1111111101001011#16) = .instr .rdWx := by decide

theorem test_decode_register_writes :
    decode (wr 0xFF40 0x91) = .instr (.wrLcdc 0x91) ∧ decode (wr 0xFF41 0xFE) = .instr (.wrStat 0xFE) ∧
    decode (wr 0xFF42 0x12) = .instr (.wrScy 0x12) ∧ decode (wr 0xFF43 0xFC) = .instr (.wrScx 0xFC) ∧
    decode (wr 0xFF44 0x01) = .instr (.wrLy 0x01) ∧ decode (wr 0xFF45 0x90) = .instr (.wrLyc 0x90) ∧
    decode (wr 0xFF47 0xE4) = .instr (.wrBgp 0xE4) ∧ decode (wr 0xFF48 0xD2) = .instr (.wrObp0 0xD2) ∧
    decode (wr 0xFF49 0x80) = .instr (.wrObp1 0x80) ∧ decode (wr 0xFF4A 0x40) = .instr (.wrWy 0x40) ∧
    decode (wr 0xFF4B 0xFF) = .instr (.wrWx 0xFF) := by decide

/-- R91: a DMA write takes the side input. -/
theorem test_decode_dma (src : DmaBlock) :
    decode ⟨0b01#2 ++ 0b000000#6 ++ 0xC0#8 ++ 0xFF46#16, src⟩ = .instr (.wrDma 0xC0 src) :=
  decodeAt_wrWord _ _ _ _ (.reg .dma) (by decide)

theorem test_decode_ports :
    decode (rd 0x8000) = .instr (.rdVram 0) ∧ decode (rd 0x9FFF) = .instr (.rdVram 0x1FFF) ∧
    decode (wr 0x8000 0xAB) = .instr (.wrVram 0 0xAB) ∧ decode (wr 0x9FFF 0x01) = .instr (.wrVram 0x1FFF 0x01) ∧
    decode (rd 0xFE00) = .instr (.rdOam 0) ∧ decode (rd 0xFE9F) = .instr (.rdOam 159) ∧
    decode (wr 0xFE00 0x5A) = .instr (.wrOam 0 0x5A) ∧ decode (wr 0xFE9F 0x7E) = .instr (.wrOam 159 0x7E) := by decide

theorem test_decode_advance :
    decode ⟨0b10#2 ++ 0x00000000#30, zeroBlock⟩ = .instr (.advance 0) ∧
    decode ⟨0b10#2 ++ 0x3FFFFFFF#30, zeroBlock⟩ = .instr (.advance 1073741823) ∧
    decode ⟨0x800001C8, zeroBlock⟩ = .instr (.advance 456) ∧
    decode ⟨0x80011250, zeroBlock⟩ = .instr (.advance 70224) := by decide

/-- R87, with the vectors of 2.6. -/
theorem test_decode_refusals :
    decode ⟨0xC0000000, zeroBlock⟩ = .refused .reservedClass ∧
    decode ⟨0x0100FF40, zeroBlock⟩ = .refused .reservedBits ∧ decode ⟨0x6000FF40, zeroBlock⟩ = .refused .reservedBits ∧
    decode ⟨0x0012FF40, zeroBlock⟩ = .refused .reservedBits ∧
    decode ⟨0x0000FF4C, zeroBlock⟩ = .refused .unmappedAddress ∧
    decode ⟨0x0000FF3F, zeroBlock⟩ = .refused .unmappedAddress ∧
    decode ⟨0x0000FEA0, zeroBlock⟩ = .refused .unmappedAddress ∧
    decode ⟨0x0000FDFF, zeroBlock⟩ = .refused .unmappedAddress ∧
    decode ⟨0x4000A000, zeroBlock⟩ = .refused .unmappedAddress ∧
    decode ⟨0x00007FFF, zeroBlock⟩ = .refused .unmappedAddress := by decide

/-- The words of programs P1, P3 and P4. -/
theorem test_encode_program_words :
    (encode (.wrStat 0x28)).word = 0x4028FF41 ∧ (encode (.advance 76)).word = 0x8000004C ∧
    (encode (.wrVram 0 0x12)).word = 0x40128000 ∧ (encode .rdStat).word = 0x0000FF41 ∧
    (encode (.wrOam 0 0x5A)).word = 0x405AFE00 ∧ (encode (.rdOam 0)).word = 0x0000FE00 ∧
    (encode (.wrScx 0x03)).word = 0x4003FF43 ∧ (encode (.wrVram 0x1800 0x01)).word = 0x40019800 := by decide

/-! ## The step -/

/-- The first transaction after reset: SM-16 and R281 (0, 0, mode 1, 0x85; ADV 4; 0, 4, 0x86, no request). -/
theorem test_step_first_advance : look seq
    (step (State.reset.withFetchWord 32 0x80000004)) = some ⟨0, 4, 0, 0x86, []⟩ := by decide

/-- A refused word ends the run (R251). -/
theorem test_step_refuses : look seq (step (State.reset.withFetchWord 32 0xC0000000)) = none := by decide

/-! ## Register reads -/

/-- RB-1, RB-20, and the reads of P2 (LY 0x90) and P5 (DMA 0xC0). -/
theorem test_plain_reads :
    look State.result (exec .rdLcdc (st 0x91 0 0 0 0 0)) = some (some 0x91) ∧
    look State.result (exec .rdLy (st 0x91 0 3 0 0 0)) = some (some 0x03) ∧
    look State.result (exec .rdLyc (st 0x91 0 3 0x90 0 0)) = some (some 0x90) ∧
    look State.result (exec .rdDma State.reset) = some (some 0xFF) := by decide

/-- RB-2, RB-3: the mode bits with the LCD on and off. -/
theorem test_stat_read :
    look State.result (exec .rdStat (st 0x91 0x2B 0 0 0 0)) = some (some 0x2B) ∧
    look State.result (exec .rdStat (st 0x11 0x2B 0 0 0 0)) = some (some 0x28) := by decide

/-- Each of the other registers is read from its own place. -/
theorem test_reads_apart :
    let s : State := { State.reset with
      regs := ⟨1, 2, 3, 4, 5, 6, 7, 8, 9, 10, 11, 12⟩ }
    look State.result (exec .rdScy s) = some (some 3) ∧ look State.result (exec .rdScx s) = some (some 4) ∧
    look State.result (exec .rdBgp s) = some (some 8) ∧ look State.result (exec .rdObp0 s) = some (some 9) ∧
    look State.result (exec .rdObp1 s) = some (some 10) ∧ look State.result (exec .rdWy s) = some (some 11) ∧
    look State.result (exec .rdWx s) = some (some 12) := by decide

/-! ## Register writes -/

/-- RB-4, RB-5, RB-6 and L1-4. -/
theorem test_stat_write :
    look (fun t => t.regs.stat) (exec (.wrStat 0x00) (st 0x91 0x87 0 0 0 0)) = some 0x03 ∧
    look (fun t => t.regs.stat) (exec (.wrStat 0xFF) (st 0x91 0x87 0 0 0 0)) = some 0xFF ∧
    look (fun t => t.regs.stat) (exec (.wrStat 0x04) (st 0x91 0x02 0 0 0 0)) = some 0x06 ∧
    look (fun t => t.regs.stat) (exec (.wrStat 0x00) (st 0x91 0xFE 0 0 0 0)) = some 0x02 ∧
    look (fun t => t.regs.stat) (exec (.wrStat 0x00) (st 0x91 0x44 0 0 0 0)) = some 0x00 := by decide

/-- RB-7: LY ignores all writes. -/
theorem test_ly_write : look (fun t => t.regs.ly) (exec (.wrLy 0x99) (st 0x91 0 0x42 0 0 0)) = some 0x42 := by decide

/-- RB-8: no comparison at the write. -/
theorem test_lyc_write : look (fun t => (t.regs.lyc, t.regs.stat)) (exec (.wrLyc 5) (st 0x91 0 5 0 0 0)) = some (5, 0x00) := by
  decide

/-- RB-9 to RB-15 and RB-21: each write reaches its own register. -/
theorem test_plain_writes :
    look State.regs (exec (.wrLcdc 0x11) State.reset) = some { State.reset.regs with lcdc := 0x11 } ∧
    look State.regs (exec (.wrScy 0x12) State.reset) = some { State.reset.regs with scy := 0x12 } ∧
    look State.regs (exec (.wrScx 0xFC) State.reset) = some { State.reset.regs with scx := 0xFC } ∧
    look State.regs (exec (.wrBgp 0xE4) State.reset) = some { State.reset.regs with bgp := 0xE4 } ∧
    look State.regs (exec (.wrObp0 0xD2) State.reset) = some { State.reset.regs with obp0 := 0xD2 } ∧
    look State.regs (exec (.wrObp1 0x7F) State.reset) = some { State.reset.regs with obp1 := 0x7F } ∧
    look State.regs (exec (.wrWy 0x40) State.reset) = some { State.reset.regs with wy := 0x40 } ∧
    look State.regs (exec (.wrWx 0x07) State.reset) = some { State.reset.regs with wx := 0x07 } := by decide

/-- RB-17: the register and the request of a DMA write, with the copy open whatever DMA_GATED is (mode 0). -/
theorem test_dma_write : look (fun t => (t.regs.dma, t.trace)) (exec (.wrDma 0xC0 zeroBlock) (st 0x91 0 0 0 0 0)) =
    some (0xC0, [.dmaRequest 0xC0]) := by decide

/-- RB-17, RB-18, RB-19: the copy in mode 0, and in mode 2 under both values of DMA_GATED. -/
theorem test_dma_copy :
    let m := fun gated mode => dmaCopied gated mode [] (Vector.replicate 160 0x11)
    (m true .hblank).map Prod.snd = List.replicate 160 0x11 ∧ (m false .oamScan).map Prod.snd = List.replicate 160 0x11 ∧
    m true .oamScan = [] := by decide +kernel

/-! ## The gated ports -/

/-- G-1, G-2, G-9 and a stored 0x00 (R221). -/
theorem test_vram_read :
    look State.result (exec (.rdVram 0x10) (gateSt 0x80 0)) = some (some 0x3C) ∧
    look State.result (exec (.rdVram 0x10) (gateSt 0x80 3)) = some (some 0xFF) ∧
    look State.result (exec (.rdVram 0x10) (gateSt 0x80 2)) = some (some 0x3C) ∧
    look State.result (exec (.rdVram 0x10) (gateSt 0x00 3)) = some (some 0x3C) := by decide

/-- G-3, G-4. -/
theorem test_vram_write :
    look State.vram (exec (.wrVram 0x10 0x00) (gateSt 0x80 3)) = some [(0x10, 0x3C)] ∧
    look State.vram (exec (.wrVram 0x10 0x00) (gateSt 0x80 2)) = some [] ∧
    look State.vram (exec (.wrVram 0x1FFF 0x01) (gateSt 0x80 1)) = some [(0x10, 0x3C), (0x1FFF, 0x01)] := by decide

/-- G-5, G-6. -/
theorem test_oam_read :
    look State.result (exec (.rdOam 5) (gateSt 0x80 1)) = some (some 0x7E) ∧
    look State.result (exec (.rdOam 5) (gateSt 0x80 2)) = some (some 0xFF) ∧
    look State.result (exec (.rdOam 5) (gateSt 0x80 3)) = some (some 0xFF) := by decide

/-- G-7, G-8, G-10. -/
theorem test_oam_write :
    look State.oam (exec (.wrOam 5 0x00) (gateSt 0x80 3)) = some [(0x05, 0x7E)] ∧
    look State.oam (exec (.wrOam 5 0x00) (gateSt 0x80 0)) = some [] ∧
    look State.oam (exec (.wrOam 5 0x01) (gateSt 0x00 2)) = some [(0x05, 0x01)] := by decide

/-! ## ADVANCE -/

/-- SM-1, SM-3 to SM-9, SM-12 to SM-14, SM-17, SM-18, in that order, then SM-2 with L1-6: row 0 white, no other row. -/
theorem test_advance_modes :
    look seq (exec (.advance 4) (st 0x80 0x02 0 0xFF 0 0)) = some ⟨0, 4, 0, 0x02, []⟩ ∧
    look seq (exec (.advance 4) (st 0x80 0x0B 0 0xFF 248 0)) = some ⟨0, 252, 0, 0x08, [ls]⟩ ∧
    look seq (exec (.advance 4) (st 0x80 0x03 0 0xFF 248 0)) = some ⟨0, 252, 0, 0x00, []⟩ ∧
    look seq (exec (.advance 4) (st 0x80 0x20 0 0xFF 452 0)) = some ⟨1, 0, 0, 0x22, [ls]⟩ ∧
    look seq (exec (.advance 4) (st 0x80 0x10 143 0xFF 452 0)) =
      some ⟨144, 0, 0, 0x11, [.interrupt .vblank, ls, .notifyVblankEntry]⟩ ∧
    look seq (exec (.advance 4) (st 0x80 0x00 143 0xFF 452 0)) =
      some ⟨144, 0, 0, 0x01, [.interrupt .vblank, .notifyVblankEntry]⟩ ∧
    look seq (exec (.advance 4) (st 0x80 0x79 144 0xFF 452 0)) = some ⟨145, 0, 0, 0x79, []⟩ ∧
    look seq (exec (.advance 4) (st 0x80 0x21 153 0xFF 452 0)) = some ⟨0, 0, 0, 0x22, [ls]⟩ ∧
    look seq (exec (.advance 1) (st 0x80 0x03 5 0xFF 100 3)) = some ⟨5, 104, 0, 0x03, []⟩ ∧
    look seq (exec (.advance 3) (st 0x80 0x03 5 0xFF 100 0)) = some ⟨5, 100, 3, 0x03, []⟩ ∧
    look seq (exec (.advance 456) (st 0x00 0x03 5 0xFF 100 0)) = some ⟨5, 100, 0, 0x03, []⟩ ∧
    look seq (exec (.advance 0) (st 0x80 0x02 0 0xFF 0 0)) = some ⟨0, 0, 0, 0x02, []⟩ ∧
    look seq (exec (.advance 4) (st 0x80 0x01 200 0xFF 452 0)) = some ⟨0, 0, 0, 0x02, []⟩ ∧
    look (fun t => (t.regs.stat, t.fb)) (exec (.advance 4) (st 0x80 0x02 0 0xFF 76 0)) =
      some (0x03, [(0, List.replicate 160 ⟨0xFF, 0xFF, 0xFF, 0xFF⟩)]) := by decide +kernel

/-- LY-1 to LY-9: the comparator, once per call and before the steps. -/
theorem test_advance_comparator :
    look seq (exec (.advance 0) (st 0x80 0x00 10 10 0 0)) = some ⟨10, 0, 0, 0x04, []⟩ ∧
    look seq (exec (.advance 0) (st 0x80 0x40 10 10 0 0)) = some ⟨10, 0, 0, 0x44, [ls]⟩ ∧
    look seq (exec (.advance 0) (st 0x80 0x44 9 10 0 0)) = some ⟨9, 0, 0, 0x40, []⟩ ∧
    look seq (exec (.advance 0) (st 0x80 0x44 11 10 0 0)) = some ⟨11, 0, 0, 0x40, []⟩ ∧
    look seq (exec (.advance 0) (st 0x00 0x40 10 10 0 0)) = some ⟨10, 0, 0, 0x40, []⟩ ∧
    look seq (exec (.advance 0) (st 0x80 0x44 153 200 0 0)) = some ⟨153, 0, 0, 0x40, []⟩ ∧
    look seq (exec (.advance 0) (st 0x80 0x44 10 10 0 0)) = some ⟨10, 0, 0, 0x44, [ls]⟩ ∧
    look seq (exec (.advance 0) (st 0x80 0x41 0 0 0 0)) = some ⟨0, 0, 0, 0x45, [ls]⟩ ∧
    look seq (exec (.advance 8) (st 0x80 0x40 9 10 452 0)) = some ⟨10, 4, 0, 0x42, []⟩ := by decide

/-- The renderer's vectors: a pixel from its registers and VRAM. -/
def px (lcdc bgp scx scy wx wy : Byte) (vram : Memory) (ly p : Nat) : Pixel :=
  renderPixel { State.reset.regs with lcdc := lcdc, bgp := bgp, scx := scx, scy := scy, wx := wx, wy := wy } vram ly p

/-- RL-1, RL-4 (the first, third, fifth and seventh pixel), RL-5, RL-9, RL-18, and P4's scroll by 3. -/
theorem test_render_background :
    let row4 : Memory := [(0x00, 0x0F), (0x01, 0x33)]
    let rl9 : Memory := [(0x52, 0x40), (0x53, 0x40), (0x1822, 0x05)]
    let p4 : Memory := [(0x10, 0xFF), (0x1800, 0x01)]
    px 0x91 0xE4 0 0 0 0 [] 0 159 = ⟨0xFF, 0xFF, 0xFF, 0xFF⟩ ∧
    (px 0x91 0xE4 0 0 0 0 row4 0 0).r = 0xFF ∧ (px 0x91 0xE4 0 0 0 0 row4 0 2).r = 0x55 ∧
    (px 0x91 0xE4 0 0 0 0 row4 0 4).r = 0xAA ∧ (px 0x91 0xE4 0 0 0 0 row4 0 6).r = 0x00 ∧
    (px 0x91 0x1B 0 0 0 0 row4 0 0).r = 0x00 ∧ (px 0x91 0x1B 0 0 0 0 row4 0 7).r = 0xFF ∧
    px 0x91 0xE4 0 0 0 0 rl9 9 17 = ⟨0x00, 0x00, 0x00, 0xFF⟩ ∧ px 0x90 0xE4 0 0 0 0 rl9 9 17 = ⟨0x00, 0x00, 0x00, 0xFF⟩ ∧
    (px 0x91 0xE4 3 0 0 0 p4 0 4).g = 0xAA ∧ (px 0x91 0xE4 3 0 0 0 p4 0 5).g = 0xFF := by decide

/-- RL-2, RL-3, RL-7, RL-8, RL-10 to RL-17: addresses and layers. -/
theorem test_render_addresses :
    let r := fun lcdc scx scy wx wy : Byte =>
      { State.reset.regs with lcdc := lcdc, scx := scx, scy := scy, wx := wx, wy := wy }
    let off := fun r ly p => mapOffset (pixelMap r ly p) (pixelX r ly p) (pixelY r ly p)
    tileAddr false 0xFF = 0x8FF0 ∧ tileAddr true 0x80 = 0x8800 ∧ tileAddr true 0x00 = 0x9000 ∧
    tileAddr true 0x7F = 0x97F0 ∧ tileAddr true 0xFF = 0x8FF0 ∧
    pixelX (r 0x91 0xFC 0 0 0) 0 4 = 0 ∧ pixelX (r 0x91 0xFC 0 0 0) 0 0 = 252 ∧
    pixelY (r 0x91 0 0xFF 0 0) 1 0 = 0 ∧ pixelY (r 0x91 0 0xFF 0 0) 0 0 = 255 ∧
    off (r 0xF1 0 0 7 0) 0 0 = 0x1C00 ∧
    isWindowPixel (r 0xF1 0 0 0x57 0) 0 79 = false ∧ isWindowPixel (r 0xF1 0 0 0x57 0) 0 80 = true ∧
    pixelX (r 0xF1 0 0 0 0) 0 0 = 7 ∧
    isWindowPixel (r 0xF1 0 0 167 0) 0 159 = false ∧ pixelX (r 0xF1 0 0 166 0) 0 159 = 0 ∧
    windowActive (r 0xF1 0 0 0 0x40) 0x3F = false ∧ pixelY (r 0xF1 0 0 0 0x40) 0x40 0 = 0 ∧
    off (r 0xF1 0 0 7 4) 20 9 = 0x1C41 ∧ off (r 0x99 0 0 0 0) 0 0 = 0x1C00 ∧ off (r 0xB1 0x50 0 7 0) 0 0 = 0x1800 := by decide

/-! ## Witnesses: a state and operands that meet an obligation's hypotheses -/

theorem witness_DecodeOfEncodeIsTheTransaction :
    (oamBaseFits 0xC000 = true ∧ (Instr.advance 1073741823).wellFormed = true) ∧
    (oamBaseFits Config.oamBase = true ∧ (Instr.wrOam 159 0xFF).wellFormed = true) := by decide

theorem witness_EncodeOfDecodeIsTheWord (src : DmaBlock) :
    oamBaseFits 0xFE00 = true ∧ decodeAt 0xFE00 ⟨wrWord 0xFF46 0xC0, src⟩ = .instr (.wrDma 0xC0 src) :=
  ⟨by decide, decodeAt_wrWord _ _ _ _ (.reg .dma) (by decide)⟩

/-- Each reason, and both ends of each hole in the address map. -/
theorem witness_ContractViolationsAreRefused :
    (∀ (cls : BitVec 2) (z6 : BitVec 6) (data : BitVec 8) (addr : BitVec 16) (src : DmaBlock),
      (State.reset.issue ⟨cls ++ z6 ++ data ++ addr, src⟩).pending = [⟨cls ++ z6 ++ data ++ addr, src⟩]) ∧
    ((3 : BitVec 2) = 3 ∧ ContractReason.reservedClass = .reservedClass) ∧
    ((1 : BitVec 2).toNat < 2 ∧ (32 : BitVec 6) ≠ 0) ∧ ((0 : BitVec 2).toNat < 2 ∧ (1 : BitVec 6) ≠ 0) ∧
    ((0 : BitVec 2) = 0 ∧ (0 : BitVec 6) = 0 ∧ (0x80 : BitVec 8) ≠ 0) ∧
    ((1 : BitVec 2).toNat < 2 ∧ ((1 : BitVec 2) = 0 → (0xFF : BitVec 8) = 0) ∧
      (0x0000 : BitVec 16).toNat < 0x8000 ∧ (0x7FFF : BitVec 16).toNat < 0x8000 ∧
      0xA000 ≤ (0xA000 : BitVec 16).toNat ∧ (0xFDFF : BitVec 16).toNat < 0xFE00 ∧
      0xFEA0 ≤ (0xFEA0 : BitVec 16).toNat ∧ (0xFF3F : BitVec 16).toNat < 0xFF40 ∧
      0xFF4C ≤ (0xFF4C : BitVec 16).toNat ∧ 0xFF4C ≤ (0xFFFF : BitVec 16).toNat) :=
  ⟨fun _ _ _ _ _ => rfl, by decide⟩

theorem witness_StepRunsTheDecodedTransaction :
    (State.reset.issue ⟨0x80000004, zeroBlock⟩).pending = ⟨0x80000004, zeroBlock⟩ :: [] ∧
    decode ⟨0x80000004, zeroBlock⟩ = .instr (.advance 4) := ⟨rfl, by decide⟩

theorem witness_StepWithNothingPendingIdles : State.reset.pending = [] := rfl

theorem witness_ResetMeetsTheInvariant : ResetDraw.default.Fits ∧
    ({ ResetDraw.default with regs := { ResetDraw.default.regs with ly := 153 }, vram := [(0x1FFF, 1)] } : ResetDraw).Fits :=
  ⟨⟨by decide, rfl, rfl, rfl⟩, ⟨by decide, rfl, rfl, rfl⟩⟩

theorem witness_FirstDotsAfterReset : 0 < 144 ∧ 143 < 144 ∧ 159 < 160 := by decide

theorem witness_LycWriteComparesNothing : (st 0x80 0 5 0 0 3).regs.lcdc.getLsbD 7 = true ∧ (st 0x80 0 5 0 0 3).acc < 4 := by
  decide

theorem witness_StatWriteKeepsTheModeBits :
    (st 0x91 0x87 0 0 80 0).regs.lcdc.getLsbD 7 = true ∧ (st 0x91 0x87 0 0 80 0).acc < 4 := by decide

theorem witness_GateTable :
    (st 0x7F 3 0 0 0 0).regs.lcdc.getLsbD 7 = false ∧ (st 0x80 3 0 0 0 0).regs.lcdc.getLsbD 7 = true := by decide

/-- The gate closed and open, for each of the two buffers. -/
theorem witness_PortWritesPassTheGate :
    (st 0x80 3 0 0 0 0).modeEff = .drawing ∧ (st 0x80 2 0 0 0 0).modeEff ≠ .drawing ∧
    (st 0x80 2 0 0 0 0).modeEff = .oamScan ∧
    ((st 0x80 1 0 0 0 0).modeEff ≠ .oamScan ∧ (st 0x80 1 0 0 0 0).modeEff ≠ .drawing) := by decide

theorem witness_OnlyAdvanceMovesTheSequencer : ∃ t, (∀ n, Instr.wrStat 0xFF ≠ .advance n) ∧
    exec (.wrStat 0xFF) (st 0x80 3 0 0 0 0) = .next t := ⟨_, nofun, rfl⟩

theorem witness_AccessesAreIdempotent : ∃ t, (∀ n, Instr.wrVram 0 1 ≠ .advance n) ∧
    (∀ v src, Instr.wrVram 0 1 ≠ .wrDma v src) ∧ exec (.wrVram 0 1) (st 0x80 2 0 0 0 0) = .next t :=
  ⟨_, nofun, nofun, rfl⟩

theorem witness_TraceOnlyGrows : (∃ t, exec (.advance 4) (st 0x80 0x20 0 0xFF 452 0) = .next t) ∧
    (∃ t, exec (.wrDma 0xC0 zeroBlock) State.reset = .next t) ∧
    ∃ t, (∀ n, Instr.rdLy ≠ .advance n) ∧ (∀ v src, Instr.rdLy ≠ .wrDma v src) ∧ exec .rdLy State.reset = .next t :=
  ⟨⟨_, rfl⟩, ⟨_, rfl⟩, _, nofun, nofun, rfl⟩

theorem witness_AdvanceIsInertWithTheLcdOff : (st 0x7F 3 5 0 100 0).regs.lcdc.getLsbD 7 = false := by decide

theorem witness_LcdOffAndOnResumes : (0x11 : Byte).getLsbD 7 = false := by decide

theorem witness_AdvanceIsTheCheckThenTheDotSteps : (st 0x80 3 5 0 100 3).regs.lcdc.getLsbD 7 = true := by decide

/-- An equality with the enable set, an equality without it, and none. -/
theorem witness_LycCheckSetsTheFlagAndRequests :
    ((st 0x80 0x40 10 10 0 3).regs.lcdc.getLsbD 7 = true ∧ (st 0x80 0x40 10 10 0 3).acc + 0 < 4 ∧
      (st 0x80 0x40 10 10 0 3).regs.ly = (st 0x80 0x40 10 10 0 3).regs.lyc ∧
      (st 0x80 0x40 10 10 0 3).regs.stat.getLsbD 6 = true) ∧
    ((st 0x80 0x00 10 10 0 0).acc + 3 < 4 ∧ (st 0x80 0x00 10 10 0 0).regs.stat.getLsbD 6 = false) ∧
    (st 0x80 0x44 9 10 0 0).regs.ly ≠ (st 0x80 0x44 9 10 0 0).regs.lyc := by decide

theorem witness_EveryCallRequestsWhileLyEqualsLyc :
    (st 0x80 0x44 10 10 0 0).regs.lcdc.getLsbD 7 = true ∧
    (st 0x80 0x44 10 10 0 0).regs.ly = (st 0x80 0x44 10 10 0 0).regs.lyc ∧
    (st 0x80 0x44 10 10 0 0).regs.stat.getLsbD 6 = true := by decide

/-- Inside a line, at its end, and at the end of the frame; one dot step with 1 and with 7 cycles in hand. -/
theorem witness_DotStepMovesThePosition :
    ((st 0x80 0 0 9 448 3).regs.lcdc.getLsbD 7 = true ∧ 4 ≤ (st 0x80 0 0 9 448 3).acc + 1 ∧
      (st 0x80 0 0 9 448 3).acc + 1 < 8 ∧ (st 0x80 0 0 9 448 3).regs.ly.toNat ≤ 153 ∧
      (st 0x80 0 0 9 448 3).dot + 4 < 456) ∧
    (4 ≤ (st 0x80 1 152 9 452 0).acc + 7 ∧ (st 0x80 1 152 9 452 0).acc + 7 < 8 ∧
      456 ≤ (st 0x80 1 152 9 452 0).dot + 4 ∧ (st 0x80 1 152 9 452 0).regs.ly.toNat < 153) ∧
    (456 ≤ (st 0x80 1 153 9 452 0).dot + 4 ∧ (st 0x80 1 153 9 452 0).regs.ly.toNat = 153) := by decide

theorem witness_ModeEntriesEmitTheirEvents :
    (st 0x80 0x10 143 0xFF 452 0).regs.lcdc.getLsbD 7 = true ∧ 4 ≤ (st 0x80 0x10 143 0xFF 452 0).acc + 4 ∧
    (st 0x80 0x10 143 0xFF 452 0).acc + 4 < 8 := by decide

/-- A step that enters mode 3 and one that does not. -/
theorem witness_DrawingEntryRendersTheLine :
    ((st 0x80 0x02 0 0xFF 76 0).regs.lcdc.getLsbD 7 = true ∧ 4 ≤ (st 0x80 0x02 0 0xFF 76 0).acc + 4 ∧
      (st 0x80 0x02 0 0xFF 76 0).acc + 4 < 8 ∧ (st 0x80 0x02 0 0xFF 76 0).regs.stat.toNat % 4 ≠ 3 ∧
      look (fun t => t.regs.stat.toNat % 4) (exec (.advance 4) (st 0x80 0x02 0 0xFF 76 0)) = some 3) ∧
    (look (fun t => t.regs.stat.toNat % 4) (exec (.advance 4) (st 0x80 0x02 0 0xFF 72 0)) = some 2) := by decide

/-- The first and the last visible line. -/
theorem witness_VisibleLineGoesTwoThreeZero :
    ((st 0x80 0x02 0 0xFF 0 0).regs.lcdc.getLsbD 7 = true ∧ (st 0x80 0x02 0 0xFF 0 0).regs.ly.toNat < 144 ∧
      (st 0x80 0x02 0 0xFF 0 0).dot = 0 ∧ (st 0x80 0x02 0 0xFF 0 0).acc = 0 ∧
      (st 0x80 0x02 0 0xFF 0 0).regs.stat.toNat % 4 = 2 ∧ 0 ≤ 114 ∧ 0 < 114 ∧ 113 < 114) ∧
    ((st 0x80 0x02 143 0xFF 0 0).regs.ly.toNat < 144 ∧ (st 0x80 0x02 143 0xFF 0 0).regs.stat.toNat % 4 = 2 ∧
      114 ≤ 114) := by decide

theorem st_line_end_inv : (st 0x80 0x01 153 0xFF 452 3).Inv :=
  ⟨by decide, by decide, by decide, by decide, rfl, rfl, rfl⟩

theorem witness_AdvanceMovesThePlaceInTheFrame : (st 0x80 0x01 153 0xFF 452 3).Inv ∧
    (st 0x80 0x01 153 0xFF 452 3).regs.lcdc.getLsbD 7 = true := ⟨st_line_end_inv, by decide⟩

theorem witness_RequestsOfOneFrame :
    (st 0x80 0x3A 0 0xFF 0 3).regs.lcdc.getLsbD 7 = true ∧ (st 0x80 0x3A 0 0xFF 0 3).regs.ly = 0 ∧
    (st 0x80 0x3A 0 0xFF 0 3).dot = 0 ∧ (st 0x80 0x3A 0 0xFF 0 3).regs.stat.toNat % 4 = 2 ∧
    (st 0x80 0x3A 0 0xFF 0 3).acc ≤ 3 ∧ (st 0x80 0x3A 0 0xFF 0 3).regs.lyc ≠ 0 := by decide

theorem witness_OneFrameRendersEveryLine : (st 0x80 0x01 153 0xFF 452 3).Inv ∧
    (st 0x80 0x01 153 0xFF 452 3).Synced ∧ (st 0x80 0x01 153 0xFF 452 3).regs.lcdc.getLsbD 7 = true :=
  ⟨st_line_end_inv, by unfold State.Synced; decide, by decide⟩

/-- Dot 80 with the longest ADVANCE of the first clause, and the entry of V-Blank with that of the second. -/
theorem witness_NoRowChangesUntilTheNextDrawingEntry :
    ((st 0x80 0x03 0 0xFF 80 0).Inv ∧ (st 0x80 0x03 0 0xFF 80 0).Synced ∧
      (st 0x80 0x03 0 0xFF 80 0).regs.lcdc.getLsbD 7 = true ∧ (st 0x80 0x03 0 0xFF 80 0).regs.ly.toNat < 144 ∧
      80 ≤ (st 0x80 0x03 0 0xFF 80 0).dot ∧
      (st 0x80 0x03 0 0xFF 80 0).dot + ((st 0x80 0x03 0 0xFF 80 0).acc + 455) < 456 + 80) ∧
    ((st 0x80 0x01 144 0xFF 0 0).Inv ∧ (st 0x80 0x01 144 0xFF 0 0).Synced ∧
      (st 0x80 0x01 144 0xFF 0 0).regs.lcdc.getLsbD 7 = true ∧ (st 0x80 0x01 144 0xFF 0 0).regs.ly.toNat = 144 ∧
      (st 0x80 0x01 144 0xFF 0 0).dot = 0 ∧ (st 0x80 0x01 144 0xFF 0 0).acc + 4639 < 4640) :=
  ⟨⟨⟨by decide, by decide, by decide, by decide, rfl, rfl, rfl⟩, by unfold State.Synced; decide, by decide⟩,
    ⟨by decide, by decide, by decide, by decide, rfl, rfl, rfl⟩, by unfold State.Synced; decide, by decide⟩

theorem witness_SplitAdvanceIsOneAdvanceWithLycOutOfRange : (st 0x80 0x01 153 154 452 3).Inv ∧
    153 < (st 0x80 0x01 153 154 452 3).regs.lyc.toNat :=
  ⟨⟨by decide, by decide, by decide, by decide, rfl, rfl, rfl⟩, by decide⟩

theorem witness_RenderedPixelIsTheSpecsFormula : 0 < 144 ∧ 143 < 144 ∧ 0 < 160 ∧ 159 < 160 := by decide

theorem witness_RenderAddressesStayInVram : 143 < 144 ∧ 159 < 160 := by decide

theorem witness_BlankVramRendersWhite :
    ((st 0x80 0x02 0 0xFF 76 0).regs.lcdc.getLsbD 7 = true ∧ 4 ≤ (st 0x80 0x02 0 0xFF 76 0).acc + 4 ∧
      (st 0x80 0x02 0 0xFF 76 0).acc + 4 < 8 ∧ (st 0x80 0x02 0 0xFF 76 0).regs.stat.toNat % 4 ≠ 3 ∧
      (st 0x80 0x02 0 0xFF 76 0).regs.bgp.toNat % 4 = 0 ∧
      look (fun t => t.regs.stat.toNat % 4) (exec (.advance 4) (st 0x80 0x02 0 0xFF 76 0)) = some 3) ∧
    ∀ o, (st 0x80 0x02 0 0xFF 76 0).vramByte o = 0 := ⟨by decide, fun _ => rfl⟩

theorem witness_RenderedEntriesAreFourGrays : 0 < 160 ∧ 159 < 160 := by decide

theorem witness_SpritesNeverReachTheFrameBuffer :
    ∀ i, i ≠ 1 → i ≠ 2 → (0x97 : Byte).getLsbD i = (st 0x91 0 0 0 0 0).regs.lcdc.getLsbD i := by
  intro i h1 h2
  by_cases h : i < 8
  · interval_cases i <;> first | rfl | contradiction
  · rw [BitVec.getLsbD_of_ge _ _ (by omega), BitVec.getLsbD_of_ge _ _ (by omega)]

/-- One step from a state that meets both invariants. -/
theorem witness_EveryStepKeepsTheInvariant : ∃ t,
    ((st 0x80 0x01 153 0xFF 452 3).issue ⟨0x80000001, zeroBlock⟩).Inv ∧
    step ((st 0x80 0x01 153 0xFF 452 3).issue ⟨0x80000001, zeroBlock⟩) = .next t := by
  have hd : decode ⟨0x80000001, zeroBlock⟩ = .instr (.advance 1) := by decide
  refine ⟨((st 0x80 0x01 153 0xFF 452 3).issue ⟨0x80000001, zeroBlock⟩).taken.advance 1,
    ⟨by decide, by decide, by decide, by decide, rfl, rfl, rfl⟩, ?_⟩
  show (match decode ⟨0x80000001, zeroBlock⟩ with
    | .instr i => exec i _
    | .refused r => .refused (.contractViolation r)) = _
  rw [hd]
  rfl

theorem witness_EveryStepKeepsTheModeOfThePosition : ∃ t,
    ((st 0x80 0x01 153 0xFF 452 3).issue ⟨0x80000001, zeroBlock⟩).Synced ∧
    step ((st 0x80 0x01 153 0xFF 452 3).issue ⟨0x80000001, zeroBlock⟩) = .next t := by
  obtain ⟨t, -, h⟩ := witness_EveryStepKeepsTheInvariant
  exact ⟨t, by unfold State.Synced; decide, h⟩

/-- A reached state with the LCD on and a dot step run. -/
theorem witness_ReachedStatesMeetTheSpecsInvariant : ∃ s, Reached true s ∧ s.regs.lcdc.getLsbD 7 = true := by
  have h := Reached.txn (.advance 4) (Reached.reset ResetDraw.default ⟨by decide, rfl, rfl, rfl⟩) rfl
  have e : (if (State.resetWith ResetDraw.default).enablesLcd (.advance 4) then false
    else false || (State.resetWith ResetDraw.default).stepsDots (.advance 4)) = true := by decide
  rw [e] at h
  exact ⟨_, h, by decide⟩

end Sys2Proof.Tests
end

section
/-! PROOFS. The mode state machine (spec/40_mode_state_machine.md): the registers it writes (R118) and the entry into
mode 3 (R108). -/

namespace Sys2Proof.Machine

variable (s : State)

/-! ## R118 -/

/-- Settles O26: R118 register by register, from the frame of ADVANCE. -/
theorem stateMachineWritesOnlyLyAndStatLowBits : Obligations.StateMachineWritesOnlyLyAndStatLowBits := by
  unfold Obligations.StateMachineWritesOnlyLyAndStatLowBits
  intro s n
  have hreg : ∀ q, q ≠ .ly → q ≠ .stat → (s.advance n).reg q = s.reg q := s.advance_reg n
  exact ⟨s.advance n, exec_advance s n, hreg .lcdc nofun nofun, hreg .scy nofun nofun, hreg .scx nofun nofun,
    hreg .lyc nofun nofun, hreg .dma nofun nofun, hreg .bgp nofun nofun, hreg .obp0 nofun nofun,
    hreg .obp1 nofun nofun, hreg .wy nofun nofun, hreg .wx nofun nofun, s.advance_stat_high n⟩

/-! ## Entry of mode 3 (R108) -/

/-- STAT[1:0] = 3 is the drawing mode (R34). -/
theorem toNat_mod_four_eq_three_iff (w : Byte) : w.toNat % 4 = 3 ↔ statMode w = .drawing := by
  rw [toNat_mod_four, ← modeBits_inj]
  rfl

/-- A dot step that enters mode 3 clears the FIFOs, emits nothing and renders the row of its line. -/
theorem State.dotStep_of_enters_drawing (ht : s.dotStep.modeSt = .drawing) (hs : s.modeSt ≠ .drawing) :
    s.dotStep.bgFifo = [] ∧ s.dotStep.objFifo = [] ∧ s.dotStep.trace = s.trace ∧
    s.dotStep.fb = (s.setFbRow s.dotStep.line (renderRow s.regs s.vram s.dotStep.line)).fb := by
  obtain ⟨hbg, hobj⟩ := s.dotStep_fifos
  have hfb := s.dotStep_fb
  have htr := s.dotStep_trace
  rw [← State.dotStep_modeSt] at hbg hobj hfb htr
  rw [if_pos ⟨ht, hs⟩] at hbg hobj hfb
  rw [if_neg (ht ▸ hs.symm), ht] at htr
  rw [State.dotStep_line]
  exact ⟨hbg, hobj, htr.trans (List.append_nil _), hfb⟩

/-- A dot step that does not enter mode 3 touches no row and no FIFO. -/
theorem State.dotStep_of_not_enters_drawing (h : s.dotStep.modeSt ≠ .drawing ∨ s.modeSt = .drawing) :
    s.dotStep.fb = s.fb ∧ s.dotStep.bgFifo = s.bgFifo ∧ s.dotStep.objFifo = s.objFifo := by
  have hn : ¬(s.dotStep.modeSt = .drawing ∧ s.modeSt ≠ .drawing) := fun ⟨ht, hs⟩ => h.elim (· ht) hs
  obtain ⟨hbg, hobj⟩ := s.dotStep_fifos
  have hfb := s.dotStep_fb
  rw [← State.dotStep_modeSt, if_neg hn] at hbg hobj hfb
  exact ⟨hfb, hbg, hobj⟩

/-- A dot step that enters mode 3 renders the 160 entries of its line and changes no other row (R140, R153). -/
theorem State.dotStep_fbPixel_of_enters_drawing (ht : s.dotStep.modeSt = .drawing) (hs : s.modeSt ≠ .drawing) :
    (∀ x, x < 160 → s.dotStep.fbPixel s.dotStep.line x = renderPixel s.regs s.vram s.dotStep.line x) ∧
    (∀ y x, y ≠ s.dotStep.line → s.dotStep.fbPixel y x = s.fbPixel y x) := by
  obtain ⟨-, -, -, hfb⟩ := s.dotStep_of_enters_drawing ht hs
  refine ⟨fun x hx => ?_, fun y x hy => ?_⟩
  · rw [State.fbPixel, hfb, ← State.fbPixel, State.setFbRow_pixel, if_pos rfl, renderRow_getD _ _ _ _ hx]
  · rw [State.fbPixel, hfb, ← State.fbPixel, State.setFbRow_pixel, if_neg hy]

/-- The comparator changes nothing a pixel is rendered from. -/
theorem renderPixel_lycCheck (vram : Memory) (ly x : Nat) :
    renderPixel s.lycCheck.regs vram ly x = renderPixel s.regs vram ly x := rfl

/-- Settles O35: an ADVANCE with one dot step's cycles in hand is the comparator and that dot step, and the comparator
changes neither the mode nor what a row is rendered from. -/
theorem drawingEntryRendersTheLine : Obligations.DrawingEntryRendersTheLine := by
  unfold Obligations.DrawingEntryRendersTheLine
  intro s n hl hacc hacc'
  refine ⟨s.lycCheck.dotStep.setAcc (s.acc + n - 4),
    (exec_advance s n).trans (congrArg _ (s.advance_one n hl hacc hacc')), ?_⟩
  have hmode (t : State) : t.regs.stat.toNat % 4 = 3 ↔ t.modeSt = .drawing := toNat_mod_four_eq_three_iff t.regs.stat
  simp only [ne_eq, hmode, State.setAcc_modeSt]
  rw [← s.lycCheck_modeSt]
  constructor
  · rintro ⟨ht, hs⟩
    obtain ⟨hbg, hobj, htr, -⟩ := s.lycCheck.dotStep_of_enters_drawing ht hs
    obtain ⟨hline, hother⟩ := s.lycCheck.dotStep_fbPixel_of_enters_drawing ht hs
    simp only [renderPixel_lycCheck, State.lycCheck_vram] at hline
    exact ⟨hbg, hobj, htr, hline, hother⟩
  · exact s.lycCheck.dotStep_of_not_enters_drawing

end Sys2Proof.Machine
end

section
/-! PROOFS. The scanline renderer (spec/41_scanline_renderer.md): no sprite register, no byte of OAM and neither sprite bit
of LCDC reaches a pixel (R156). -/

namespace Sys2Proof.Machine

/-- What sprite composition would read (R156): OAM, OBP0, OBP1, and LCDC for its bits 1 and 2. -/
structure SpriteInputs where
  oam  : Memory
  lcdc : Byte
  obp0 : Byte
  obp1 : Byte

/-- The LCDC of `p` differs from `lcdc` in bits 1 and 2 at most. -/
def SpriteInputs.KeepsRenderBits (p : SpriteInputs) (lcdc : Byte) : Prop :=
  ∀ i, i ≠ 1 → i ≠ 2 → p.lcdc.getLsbD i = lcdc.getLsbD i

/-- The bank with the sprite inputs' registers put in. -/
def RegBank.withSprites (b : RegBank) (p : SpriteInputs) : RegBank :=
  { b with lcdc := p.lcdc, obp0 := p.obp0, obp1 := p.obp1 }

/-- The state with the sprite inputs put in: the change O47 quantifies over. -/
def State.withSprites (s : State) (p : SpriteInputs) : State :=
  { s with oam := p.oam, regs := s.regs.withSprites p }

/-! ## The renderer reads none of them -/

section Renderer

variable {p : SpriteInputs} {b : RegBank} (h : p.KeepsRenderBits b.lcdc)
include h

/-- The layer of a pixel is chosen by LCDC[5] alone (R141, R144). -/
theorem isWindowPixel_withSprites (ly px : Nat) : isWindowPixel (b.withSprites p) ly px = isWindowPixel b ly px := by
  have h5 : winEnable p.lcdc = winEnable b.lcdc := h 5 (by decide) (by decide)
  exact congrArg (fun en => en && decide (b.wy.toNat ≤ ly) && decide (b.wx.toNat ≤ px + 7)) h5

/-- The tile map of a pixel is chosen by LCDC[3] and LCDC[6] (R143, R144). -/
theorem pixelMap_withSprites (ly px : Nat) : pixelMap (b.withSprites p) ly px = pixelMap b ly px := by
  have h3 : bgMapBit p.lcdc = bgMapBit b.lcdc := h 3 (by decide) (by decide)
  have h6 : winMapBit p.lcdc = winMapBit b.lcdc := h 6 (by decide) (by decide)
  simp only [pixelMap, isWindowPixel_withSprites h]
  simp only [RegBank.withSprites, h3, h6]

theorem pixelX_withSprites (ly px : Nat) : pixelX (b.withSprites p) ly px = pixelX b ly px := by
  simp only [pixelX, isWindowPixel_withSprites h]
  rfl

theorem pixelY_withSprites (ly px : Nat) : pixelY (b.withSprites p) ly px = pixelY b ly px := by
  simp only [pixelY, isWindowPixel_withSprites h]
  rfl

/-- The tile data of a pixel is chosen by LCDC[4] (R142). -/
theorem pixelRow_withSprites (vram : Memory) (ly px : Nat) :
    pixelRow (b.withSprites p) vram ly px = pixelRow b vram ly px := by
  have h4 : tileDataBit p.lcdc = tileDataBit b.lcdc := h 4 (by decide) (by decide)
  simp only [pixelRow, pixelTile, pixelMap_withSprites h, pixelX_withSprites h, pixelY_withSprites h]
  simp only [RegBank.withSprites, h4]

theorem renderPixel_withSprites (vram : Memory) (ly px : Nat) :
    renderPixel (b.withSprites p) vram ly px = renderPixel b vram ly px := by
  simp only [renderPixel, pixelColor, pixelRow_withSprites h, pixelX_withSprites h]
  rfl

theorem renderRow_withSprites (vram : Memory) (ly : Nat) :
    renderRow (b.withSprites p) vram ly = renderRow b vram ly :=
  List.map_congr_left fun px _ => renderPixel_withSprites h vram ly px

end Renderer

/-! ## ADVANCE carries them along -/

section Advance

variable {p : SpriteInputs} (s : State)

theorem State.lycCheck_withSprites : (s.withSprites p).lycCheck = s.lycCheck.withSprites p := rfl

theorem State.tick_withSprites : (s.withSprites p).tick = s.tick.withSprites p := rfl

variable {s} (h : p.KeepsRenderBits (s.reg .lcdc))
include h

theorem State.lcdOn_withSprites : (s.withSprites p).lcdOn = s.lcdOn := h 7 (by decide) (by decide)

/-- Only the entry of mode 3 looks at the sprite inputs' registers, and it renders the same row. -/
theorem State.enterMode_withSprites (m : Mode) : (s.withSprites p).enterMode m = (s.enterMode m).withSprites p := by
  cases m with
  | drawing =>
    have hrow : renderRow (s.regs.withSprites p) s.vram s.line = renderRow s.regs s.vram s.line :=
      renderRow_withSprites h s.vram s.line
    exact congrArg (fun row => ((s.setMode .drawing).clearFifos.setFbRow s.line row).withSprites p) hrow
  | oamScan => rfl
  | hblank => rfl
  | vblank => rfl

theorem State.settle_withSprites : (s.withSprites p).settle = s.settle.withSprites p := by
  unfold State.settle
  rw [apply_ite (State.withSprites · p), ← State.enterMode_withSprites h]
  rfl

theorem State.dotStep_withSprites : (s.withSprites p).dotStep = s.dotStep.withSprites p :=
  State.settle_withSprites (s := s.tick) h

theorem State.dotSteps_withSprites (k : Nat) :
    State.dotStep^[k] (s.withSprites p) = (State.dotStep^[k] s).withSprites p := by
  induction k generalizing s with
  | zero => rfl
  | succ k ih =>
    have hlcdc : s.dotStep.reg .lcdc = s.reg .lcdc := s.dotStep_reg_other .lcdc nofun nofun
    rw [Function.iterate_succ_apply, Function.iterate_succ_apply, State.dotStep_withSprites h, ih (hlcdc ▸ h)]

/-- R156 as a commuting square: to put other sprite inputs in and advance is to advance and put them in. -/
theorem State.advance_withSprites (n : Nat) : (s.withSprites p).advance n = (s.advance n).withSprites p := by
  cases hl : s.lcdOn with
  | false => rw [State.advance_off _ _ hl, State.advance_off _ _ (State.lcdOn_withSprites h ▸ hl)]
  | true =>
    rw [State.advance_on _ _ hl, State.advance_on _ _ (State.lcdOn_withSprites h ▸ hl), State.lycCheck_withSprites,
      State.dotSteps_withSprites (s := s.lycCheck) h]
    rfl

end Advance

/-- Settles O47: ADVANCE commutes with putting other sprite inputs in, and that leaves the frame buffer alone. -/
theorem spritesNeverReachTheFrameBuffer : Obligations.SpritesNeverReachTheFrameBuffer := by
  unfold Obligations.SpritesNeverReachTheFrameBuffer
  intro s n oam lcdc obp0 obp1 h
  have hadv := State.advance_withSprites (p := ⟨oam, lcdc, obp0, obp1⟩) h n
  exact ⟨s.advance n, exec_advance s n, (exec_advance _ n).trans (congrArg _ hadv)⟩

end Sys2Proof.Machine
end

section
/-! PROOFS. The register bank (spec/42_register_bank.md): plain reads and their read-back (R181-R192), and the writes of
STAT (R194), LY (R197) and LYC (R198). -/

namespace Sys2Proof

/-! ## The word of a register access (R81, R82) -/

theorem decode_rdWord_reg (r : Reg) (src : DmaBlock) : decode ⟨rdWord (regAddr r), src⟩ = .instr (readOf (.reg r)) :=
  decodeAt_rdWord _ _ _ _ (targetAt_reg _ r)

theorem decode_wrWord_reg (r : Reg) (v : Byte) (src : DmaBlock) :
    decode ⟨wrWord (regAddr r) v, src⟩ = .instr (writeOf v src (.reg r)) :=
  decodeAt_wrWord _ _ _ _ _ (targetAt_reg _ r)

end Sys2Proof

namespace Sys2Proof.Machine

variable (s : State) (v : Byte)

/-! ## Reads and writes, one rule for all registers -/

theorem exec_readOf_reg (r : Reg) : exec (readOf (.reg r)) s = .next (s.returnByte (s.busRead r)) := by
  cases r <;> rfl

/-- DMA is left out for its request and copy (R199); LY is stored as it stands (R197). -/
theorem exec_writeOf_reg (r : Reg) (src : DmaBlock) (h : r ≠ .dma) :
    exec (writeOf v src (.reg r)) s = .next (s.busWrite r v) := by
  cases r with
  | dma => exact absurd rfl h
  | _ => rfl

theorem State.busRead_of_ne_stat (r : Reg) (h : r ≠ .stat) : s.busRead r = s.reg r := by
  cases r with
  | stat => exact absurd rfl h
  | _ => rfl

theorem State.busStored_of_plain (r : Reg) (hstat : r ≠ .stat) (hly : r ≠ .ly) : s.busStored r v = v := by
  cases r with
  | stat => exact absurd rfl hstat
  | ly => exact absurd rfl hly
  | _ => rfl

theorem State.busRead_busWrite (r : Reg) (hstat : r ≠ .stat) (hly : r ≠ .ly) : (s.busWrite r v).busRead r = v := by
  rw [State.busRead_of_ne_stat _ _ hstat, State.busWrite, State.setReg_reg_self, State.busStored_of_plain _ _ _ hstat hly]

/-- A register with no rule of its own: the word of its read, what the read answers, and the read-back of a write. -/
theorem plain_register_access (src : DmaBlock) (r : Reg) (hstat : r ≠ .stat) (hly : r ≠ .ly) (hdma : r ≠ .dma) :
    decode ⟨rdWord (regAddr r), src⟩ = .instr (readOf (.reg r)) ∧
    exec (readOf (.reg r)) s = .next (s.returnByte (s.reg r)) ∧
    ∃ t, exec (writeOf v src (.reg r)) s = .next t ∧ exec (readOf (.reg r)) t = .next (t.returnByte v) := by
  refine ⟨decode_rdWord_reg r src, ?_, s.busWrite r v, exec_writeOf_reg s v r src hdma, ?_⟩
  · rw [exec_readOf_reg, State.busRead_of_ne_stat _ _ hstat]
  · rw [exec_readOf_reg, State.busRead_busWrite _ _ _ hstat hly]

/-- Settles O11: each of the seven is a register with no rule of its own. -/
theorem registerReadsReturnTheStoredByte : Obligations.RegisterReadsReturnTheStoredByte := by
  unfold Obligations.RegisterReadsReturnTheStoredByte
  intro s v src
  have access := plain_register_access s v src
  exact ⟨access .lcdc nofun nofun nofun, access .scy nofun nofun nofun, access .scx nofun nofun nofun,
    access .lyc nofun nofun nofun, access .bgp nofun nofun nofun, access .wy nofun nofun nofun,
    access .wx nofun nofun nofun⟩

/-- Settles O17: the write is decoded as a write and answers the state it found. -/
theorem lyIgnoresAllWrites : Obligations.LyIgnoresAllWrites := by
  unfold Obligations.LyIgnoresAllWrites
  intro s v src
  exact ⟨decode_wrWord_reg .ly v src, exec_wrLy s v, exec_rdLy s⟩

/-! ## The comparison comes with ADVANCE (R102, R194, R198) -/

/-- An ADVANCE too short for a dot step leaves the comparison of LY and LYC in STAT[2], whatever stood there. -/
theorem State.advance_short_coincidence (n : Nat) (hl : s.lcdOn = true) (h : s.acc + n < 4) :
    coincidence ((s.advance n).reg .stat) = decide (s.reg .ly = s.reg .lyc) := by
  rw [State.advance_short _ _ hl h, State.setAcc_reg, State.lycCheck_reg_stat, coincidence_statWithCoincidence,
    beq_eq_decide]

/-- Settles O15: the write is the plain store, and the ADVANCE after it compares LY with the byte stored. -/
theorem lycWriteComparesNothing : Obligations.LycWriteComparesNothing := by
  unfold Obligations.LycWriteComparesNothing
  intro s v src
  refine ⟨decode_wrWord_reg .lyc v src, exec_wrLyc s v, fun hl hacc => ?_⟩
  exact ⟨(s.busWrite .lyc v).advance 0, exec_advance _ 0, (s.busWrite .lyc v).advance_short_coincidence 0 hl hacc⟩

/-- Settles O16: the write stores `statAfterWrite`, and the ADVANCE after it overwrites the written bit 2. -/
theorem statWriteKeepsTheModeBits : Obligations.StatWriteKeepsTheModeBits := by
  unfold Obligations.StatWriteKeepsTheModeBits
  intro s v src
  refine ⟨decode_wrWord_reg .stat v src, statAfterWrite v s.regs.stat, exec_wrStat s v,
    statAfterWrite_high v s.regs.stat, statAfterWrite_low v s.regs.stat, fun hl hacc => ?_⟩
  exact ⟨(s.busWrite .stat v).advance 0, exec_advance _ 0, (s.busWrite .stat v).advance_short_coincidence 0 hl hacc⟩

end Sys2Proof.Machine
end

section
/-! PROOFS. The VRAM and OAM access gate (spec/43_vram_oam_gate.md): port reads (R221, R223) and port writes (R222, R224)
through the gate of R220. -/

namespace Sys2Proof

/-! ## The word of a port access (R85) -/

theorem decode_rdWord_vram (o : Fin 8192) (src : DmaBlock) : decode ⟨rdWord (vramAddr o), src⟩ = .instr (.rdVram o) :=
  decodeAt_rdWord _ _ _ _ (targetAt_vram _ o)

theorem decode_wrWord_vram (o : Fin 8192) (v : Byte) (src : DmaBlock) :
    decode ⟨wrWord (vramAddr o) v, src⟩ = .instr (.wrVram o v) :=
  decodeAt_wrWord _ _ _ _ _ (targetAt_vram _ o)

/-- The default OAM base keeps OAM clear of VRAM and of the registers (D21). -/
theorem oamBaseFits_default : oamBaseFits Config.oamBase = true := by decide

theorem decode_rdWord_oam (o : Fin 160) (src : DmaBlock) :
    decode ⟨rdWord (oamAddr Config.oamBase o), src⟩ = .instr (.rdOam o) :=
  decodeAt_rdWord _ _ _ _ (targetAt_oam _ o oamBaseFits_default)

theorem decode_wrWord_oam (o : Fin 160) (v : Byte) (src : DmaBlock) :
    decode ⟨wrWord (oamAddr Config.oamBase o) v, src⟩ = .instr (.wrOam o v) :=
  decodeAt_wrWord _ _ _ _ _ (targetAt_oam _ o oamBaseFits_default)

end Sys2Proof

namespace Sys2Proof.Machine

/-! ## The modes that close the gate (R220) -/

theorem vramOpen_eq_false_iff (m : Mode) : vramOpen m = false ↔ m = .drawing := by cases m <;> decide

theorem oamOpen_eq_false_iff (m : Mode) : oamOpen m = false ↔ m ∈ [Mode.oamScan, .drawing] := by cases m <;> decide

variable (s : State) (v : Byte)

/-! ## Reads (R221, R223) -/

theorem State.memReadVram_eq (o : Nat) :
    s.memReadVram o = if s.modeEff = .drawing then 0xFF else s.vramByte o := by
  simp only [← vramOpen_eq_false_iff, State.memReadVram]
  cases vramOpen s.modeEff <;> rfl

theorem State.memReadOam_eq (o : Nat) :
    s.memReadOam o = if s.modeEff ∈ [.oamScan, .drawing] then 0xFF else s.oamByte o := by
  simp only [← oamOpen_eq_false_iff, State.memReadOam]
  cases oamOpen s.modeEff <;> rfl

/-- Settles O20: the read word reaches its offset, and the byte returned is the port's read through the gate. -/
theorem portReadsPassTheGate : Obligations.PortReadsPassTheGate := by
  unfold Obligations.PortReadsPassTheGate
  intro s src
  refine ⟨fun o => ⟨decode_rdWord_vram o src, ?_⟩, fun o => ⟨decode_rdWord_oam o src, ?_⟩⟩
  · rw [exec_rdVram, State.memReadVram_eq]
    rfl
  · rw [exec_rdOam, State.memReadOam_eq]
    rfl

/-! ## Writes (R222, R224) -/

theorem State.memWriteVram_closed (o : Nat) (h : vramOpen s.modeEff = false) : s.memWriteVram o v = s := by
  simp [State.memWriteVram, State.setVram, h]

theorem State.memWriteVram_open (o : Nat) (h : vramOpen s.modeEff = true) :
    s.memWriteVram o v = s.setVram (s.vram.writeByte o v) := by
  simp [State.memWriteVram, h]

theorem State.memWriteOam_closed (o : Nat) (h : oamOpen s.modeEff = false) : s.memWriteOam o v = s := by
  simp [State.memWriteOam, State.setOam, h]

theorem State.memWriteOam_open (o : Nat) (h : oamOpen s.modeEff = true) :
    s.memWriteOam o v = s.setOam (s.oam.writeByte o v) := by
  simp [State.memWriteOam, h]

/-- Settles O21: the write word reaches its offset; a closed gate answers the state it found, an open one the state with
that one byte written, and `Memory.readByte_writeByte` says what every byte then reads as. -/
theorem portWritesPassTheGate : Obligations.PortWritesPassTheGate := by
  unfold Obligations.PortWritesPassTheGate
  intro s v src
  refine ⟨fun o => ⟨decode_wrWord_vram o v src, fun hclosed => ?_, fun hopen => ?_⟩,
    fun o => ⟨decode_wrWord_oam o v src, fun hclosed => ?_, fun hscan hdraw => ?_⟩⟩
  · have hgate : vramOpen s.modeEff = false := (vramOpen_eq_false_iff _).2 hclosed
    rw [exec_wrVram, State.memWriteVram_closed _ _ _ hgate]
  · have hgate : vramOpen s.modeEff = true :=
      Bool.of_not_eq_false (mt (vramOpen_eq_false_iff _).1 hopen)
    exact ⟨s.vram.writeByte o v, by rw [exec_wrVram, State.memWriteVram_open _ _ _ hgate]; rfl,
      fun q => Memory.readByte_writeByte _ _ _ _⟩
  · have hgate : oamOpen s.modeEff = false := (oamOpen_eq_false_iff _).2 (by simpa using hclosed)
    rw [exec_wrOam, State.memWriteOam_closed _ _ _ hgate]
  · have hgate : oamOpen s.modeEff = true :=
      Bool.of_not_eq_false (mt (oamOpen_eq_false_iff _).1 (by simp [hscan, hdraw]))
    exact ⟨s.oam.writeByte o v, by rw [exec_wrOam, State.memWriteOam_open _ _ _ hgate]; rfl,
      fun q => Memory.readByte_writeByte _ _ _ _⟩

end Sys2Proof.Machine
end

section
/-! PROOFS. The encoding (spec/30_encoding.md): the two round trips, the accepted words (R87), the refusals (R251), and
the step that runs what a word decodes to (R69). -/

namespace Sys2Proof

/-! ## Transactions by target (R81, R82, R83) -/

/-- Every transaction is a read or a write of a target, or ADVANCE: the three classes of a word. -/
theorem Instr.read_write_or_advance (i : Instr) :
    (∃ x, i = readOf x) ∨ (∃ v src x, i = writeOf v src x) ∨ ∃ n, i = .advance n := by
  cases i with
  | rdLcdc => exact .inl ⟨.reg .lcdc, rfl⟩
  | rdStat => exact .inl ⟨.reg .stat, rfl⟩
  | rdScy => exact .inl ⟨.reg .scy, rfl⟩
  | rdScx => exact .inl ⟨.reg .scx, rfl⟩
  | rdLy => exact .inl ⟨.reg .ly, rfl⟩
  | rdLyc => exact .inl ⟨.reg .lyc, rfl⟩
  | rdDma => exact .inl ⟨.reg .dma, rfl⟩
  | rdBgp => exact .inl ⟨.reg .bgp, rfl⟩
  | rdObp0 => exact .inl ⟨.reg .obp0, rfl⟩
  | rdObp1 => exact .inl ⟨.reg .obp1, rfl⟩
  | rdWy => exact .inl ⟨.reg .wy, rfl⟩
  | rdWx => exact .inl ⟨.reg .wx, rfl⟩
  | rdVram o => exact .inl ⟨.vram o, rfl⟩
  | rdOam o => exact .inl ⟨.oam o, rfl⟩
  | wrLcdc v => exact .inr (.inl ⟨v, zeroBlock, .reg .lcdc, rfl⟩)
  | wrStat v => exact .inr (.inl ⟨v, zeroBlock, .reg .stat, rfl⟩)
  | wrScy v => exact .inr (.inl ⟨v, zeroBlock, .reg .scy, rfl⟩)
  | wrScx v => exact .inr (.inl ⟨v, zeroBlock, .reg .scx, rfl⟩)
  | wrLy v => exact .inr (.inl ⟨v, zeroBlock, .reg .ly, rfl⟩)
  | wrLyc v => exact .inr (.inl ⟨v, zeroBlock, .reg .lyc, rfl⟩)
  | wrDma v src => exact .inr (.inl ⟨v, src, .reg .dma, rfl⟩)
  | wrBgp v => exact .inr (.inl ⟨v, zeroBlock, .reg .bgp, rfl⟩)
  | wrObp0 v => exact .inr (.inl ⟨v, zeroBlock, .reg .obp0, rfl⟩)
  | wrObp1 v => exact .inr (.inl ⟨v, zeroBlock, .reg .obp1, rfl⟩)
  | wrWy v => exact .inr (.inl ⟨v, zeroBlock, .reg .wy, rfl⟩)
  | wrWx v => exact .inr (.inl ⟨v, zeroBlock, .reg .wx, rfl⟩)
  | wrVram o v => exact .inr (.inl ⟨v, zeroBlock, .vram o, rfl⟩)
  | wrOam o v => exact .inr (.inl ⟨v, zeroBlock, .oam o, rfl⟩)
  | advance n => exact .inr (.inr ⟨n, rfl⟩)

/-- The address a target has on a base that fits reaches that target (R85). -/
theorem targetAt_targetAddr (base : Addr) (x : Target) (h : oamBaseFits base = true) :
    targetAt base (targetAddr base x) = some x := by
  cases x with
  | reg r => exact targetAt_reg base r
  | vram o => exact targetAt_vram base o
  | oam o => exact targetAt_oam base o h

/-- An encoded write carries its side input, or, where it is no DMA write, one that makes no difference (R91). -/
theorem encodeAt_writeOf (base : Addr) (v : Byte) (src : DmaBlock) (x : Target) :
    ∃ src', encodeAt base (writeOf v src x) = ⟨wrWord (targetAddr base x) v, src'⟩ ∧
      writeOf v src' x = writeOf v src x := by
  cases x with
  | reg r =>
    cases r with
    | dma => exact ⟨src, rfl, rfl⟩
    | _ => exact ⟨zeroBlock, rfl, rfl⟩
  | vram o => exact ⟨zeroBlock, rfl, rfl⟩
  | oam o => exact ⟨zeroBlock, rfl, rfl⟩

/-- Decoding gives an encoded transaction back, class by class. -/
theorem decodeAt_encodeAt (base : Addr) (i : Instr) (hbase : oamBaseFits base = true) (hi : i.wellFormed = true) :
    decodeAt base (encodeAt base i) = .instr i := by
  rcases i.read_write_or_advance with ⟨x, rfl⟩ | ⟨v, src, x, rfl⟩ | ⟨n, rfl⟩
  · rw [encodeAt_readOf]
    exact decodeAt_rdWord _ _ _ _ (targetAt_targetAddr base x hbase)
  · obtain ⟨src', henc, hsame⟩ := encodeAt_writeOf base v src x
    rw [henc, decodeAt_wrWord _ _ _ _ _ (targetAt_targetAddr base x hbase), hsame]
  · have hn : n < 2 ^ 30 := of_decide_eq_true hi
    show decodeAt base ⟨advWord (BitVec.ofNat 30 n), zeroBlock⟩ = _
    rw [decodeAt_advWord, BitVec.toNat_ofNat, Nat.mod_eq_of_lt hn]

/-- Settles O2: the round trip of `decodeAt_encodeAt`; the default base fits. -/
theorem decodeOfEncodeIsTheTransaction : Obligations.DecodeOfEncodeIsTheTransaction := by
  unfold Obligations.DecodeOfEncodeIsTheTransaction
  exact ⟨decodeAt_encodeAt, fun i => decodeAt_encodeAt Config.oamBase i oamBaseFits_default⟩

/-! ## What a word that decodes looks like (R80-R88) -/

/-- The class that is none of the other three is the write class (R80). -/
theorem cls_eq_wr {cls : BitVec 2} (hres : cls ≠ clsReserved) (hadv : cls ≠ clsAdv) (hrd : cls ≠ clsRd) :
    cls = clsWr := by
  revert cls
  decide

section Parts

variable {base : Addr} {cls : BitVec 2} {z6 : BitVec 6} {data : Byte} {addr : Addr} {src : DmaBlock}

/-- Which words made of four parts decode, and to what. -/
theorem decodeAt_parts_eq_instr {i : Instr} (h : decodeAt base ⟨cls ++ z6 ++ data ++ addr, src⟩ = .instr i) :
    (cls = clsAdv ∧ i = .advance (fieldN (cls ++ z6 ++ data ++ addr)).toNat) ∨
    ∃ x, targetAt base addr = some x ∧ z6 = 0 ∧
      ((cls = clsRd ∧ data = 0 ∧ i = readOf x) ∨ (cls = clsWr ∧ i = writeOf data src x)) := by
  rw [decodeAt_parts] at h
  split_ifs at h with hres hadv hz6 hdata hrd
  · exact .inl ⟨hadv, (Decoded.instr.inj h).symm⟩
  · split at h
    · cases h
    next x hx =>
      have hzero : data = 0 := not_not.1 fun hne => hdata ⟨hrd, hne⟩
      exact .inr ⟨x, hx, not_not.1 hz6, .inl ⟨hrd, hzero, (Decoded.instr.inj h).symm⟩⟩
  · split at h
    · cases h
    next x hx => exact .inr ⟨x, hx, not_not.1 hz6, .inr ⟨cls_eq_wr hres hadv hrd, (Decoded.instr.inj h).symm⟩⟩

theorem decodeAt_reservedClass :
    decodeAt base ⟨clsReserved ++ z6 ++ data ++ addr, src⟩ = .refused .reservedClass := by
  rw [decodeAt_parts, if_pos rfl]

theorem decodeAt_nonzero_z6 (hres : cls ≠ clsReserved) (hadv : cls ≠ clsAdv) (hz6 : z6 ≠ 0) :
    decodeAt base ⟨cls ++ z6 ++ data ++ addr, src⟩ = .refused .reservedBits := by
  rw [decodeAt_parts, if_neg hres, if_neg hadv, if_pos hz6]

theorem decodeAt_nonzero_data (hdata : data ≠ 0) :
    decodeAt base ⟨clsRd ++ (0 : BitVec 6) ++ data ++ addr, src⟩ = .refused .reservedBits := by
  rw [decodeAt_parts, if_neg (by decide), if_neg (by decide), if_neg (by decide), if_pos ⟨rfl, hdata⟩]

theorem decodeAt_unmapped (hres : cls ≠ clsReserved) (hadv : cls ≠ clsAdv) (hdata : cls = clsRd → data = 0)
    (hx : targetAt base addr = none) :
    decodeAt base ⟨cls ++ (0 : BitVec 6) ++ data ++ addr, src⟩ = .refused .unmappedAddress := by
  rw [decodeAt_parts, if_neg hres, if_neg hadv, if_neg (by decide), if_neg fun h => h.2 (hdata h.1), hx]

end Parts

/-- The words that decode are those the encoder writes. -/
theorem word_of_decodeAt_eq_instr {base : Addr} {t : Txn} {i : Instr} (h : decodeAt base t = .instr i) :
    (t.word = advWord (fieldN t.word) ∧ i = .advance (fieldN t.word).toNat) ∨
    (∃ x, t.word = rdWord (targetAddr base x) ∧ i = readOf x) ∨
    (∃ v x, t.word = wrWord (targetAddr base x) v ∧ i = writeOf v t.src x) := by
  have hparts := word_parts t.word
  have hdec : decodeAt base ⟨fieldCls t.word ++ fieldZ6 t.word ++ fieldData t.word ++ fieldAddr t.word, t.src⟩ =
      .instr i := hparts ▸ h
  rcases decodeAt_parts_eq_instr hdec with ⟨hcls, hi⟩ | ⟨x, hx, hz6, ⟨hcls, hdata, hi⟩ | ⟨hcls, hi⟩⟩
  · refine .inl ⟨?_, by rw [hi, ← hparts]⟩
    rw [advWord, ← hcls, ← word_adv_parts]
  · rw [hcls, hz6, hdata, targetAt_some hx] at hparts
    exact .inr (.inl ⟨x, hparts, hi⟩)
  · rw [hcls, hz6, targetAt_some hx] at hparts
    exact .inr (.inr ⟨fieldData t.word, x, hparts, hi⟩)

theorem wellFormed_readOf (x : Target) : (readOf x).wellFormed = true := by
  cases x with
  | reg r => cases r <;> rfl
  | vram o => rfl
  | oam o => rfl

theorem wellFormed_writeOf (v : Byte) (src : DmaBlock) (x : Target) : (writeOf v src x).wellFormed = true := by
  cases x with
  | reg r => cases r <;> rfl
  | vram o => rfl
  | oam o => rfl

theorem readOf_ne_wrDma (x : Target) (v : Byte) (src : DmaBlock) : readOf x ≠ .wrDma v src := by
  cases x with
  | reg r => cases r <;> exact nofun
  | vram o => exact nofun
  | oam o => exact nofun

/-- A write that is a DMA write carries the side input it was given (R91). -/
theorem src_of_writeOf_eq_wrDma {v v' : Byte} {src src' : DmaBlock} {x : Target}
    (h : writeOf v src x = .wrDma v' src') : src' = src := by
  cases x with
  | reg r =>
    cases r with
    | dma => cases h; rfl
    | _ => cases h
  | vram o => cases h
  | oam o => cases h

/-- Settles O3: each of the three shapes of a word that decodes is the encoding of what it decodes to. -/
theorem encodeOfDecodeIsTheWord : Obligations.EncodeOfDecodeIsTheWord := by
  unfold Obligations.EncodeOfDecodeIsTheWord
  intro base t i _ h
  rcases word_of_decodeAt_eq_instr h with ⟨hword, rfl⟩ | ⟨x, hword, rfl⟩ | ⟨v, x, hword, rfl⟩
  · refine ⟨decide_eq_true (fieldN t.word).isLt, ?_, fun _ _ => nofun⟩
    show advWord (BitVec.ofNat 30 (fieldN t.word).toNat) = t.word
    rw [BitVec.ofNat_toNat, BitVec.setWidth_eq, ← hword]
  · refine ⟨wellFormed_readOf x, ?_, fun v src heq => absurd heq (readOf_ne_wrDma x v src)⟩
    rw [encodeAt_readOf, hword]
    rfl
  · refine ⟨wellFormed_writeOf v t.src x, ?_, fun _ _ => src_of_writeOf_eq_wrDma⟩
    rw [encodeAt_writeOf_word, hword]

/-! ## Words the table has, and words it has not (R87) -/

/-- The addresses that reach something on this machine (R85; OAM at the default base: log 5). -/
theorem targetAt_default_eq_none_iff (a : Addr) : targetAt Config.oamBase a = none ↔
    a.toNat < 0x8000 ∨ 0xA000 ≤ a.toNat ∧ a.toNat < 0xFE00 ∨ 0xFEA0 ≤ a.toNat ∧ a.toNat < 0xFF40 ∨
      0xFF4C ≤ a.toNat := by
  rw [targetAt_none_iff, show Config.oamBase.toNat = 0xFE00 from rfl]
  omega

/-- Settles O4: `decodeAt_parts_eq_instr` one way; the other way the word is one the encoder writes. -/
theorem acceptedWordsAreTheTable : Obligations.AcceptedWordsAreTheTable := by
  unfold Obligations.AcceptedWordsAreTheTable
  intro cls z6 data addr src
  have hnone := targetAt_default_eq_none_iff addr
  constructor
  · rintro ⟨i, hi⟩
    rcases decodeAt_parts_eq_instr hi with ⟨hcls, -⟩ | ⟨x, hx, hz6, hcls⟩
    · exact .inl hcls
    · rw [hx, eq_false (Option.some_ne_none x), false_iff] at hnone
      exact .inr ⟨hcls.imp (fun h => ⟨h.1, h.2.1⟩) And.left, hz6, by omega⟩
  · rintro (rfl | ⟨hcls, rfl, haddr⟩)
    · exact ⟨_, (congrArg (fun w => decode ⟨w, src⟩) (word_adv_parts _)).trans
        (by rw [fieldCls_parts]; exact decodeAt_advWord _ _ src)⟩
    · obtain ⟨x, hx⟩ := Option.ne_none_iff_exists'.1 fun h => absurd (hnone.1 h) (by omega)
      rcases hcls with ⟨rfl, rfl⟩ | rfl
      · exact ⟨readOf x, decodeAt_rdWord _ _ src x hx⟩
      · exact ⟨writeOf data src x, decodeAt_wrWord _ _ _ src x hx⟩

end Sys2Proof

namespace Sys2Proof.Machine

variable {s : State} {t : Txn} {rest : List Txn}

/-! ## The step (R69, R251) -/

theorem step_of_decode_instr {i : Instr} (hs : s.pending = t :: rest) (hi : decode t = .instr i) :
    step s = exec i { s with pending := rest, result := none } := by
  simp only [step, State.nextTxn, State.taken, hs, List.head?_cons, List.tail_cons, hi]

theorem step_of_decode_refused {r : ContractReason} (hs : s.pending = t :: rest) (hr : decode t = .refused r) :
    step s = .refused (.contractViolation r) := by
  simp only [step, State.nextTxn, hs, List.head?_cons, hr]

theorem step_of_pending_nil (hs : s.pending = []) : step s = .next s := by
  simp only [step, State.nextTxn, hs, List.head?_nil]

/-- A run of at least one step from a state whose step is refused is refused. -/
theorem run_of_step_refused {r : Refusal} (h : step s = .refused r) (k : Nat) :
    Host.Core.run Sys2Proof.core (k + 1) s = .refused r := by
  have hstep : Sys2Proof.core.step s = .refused r := h
  simp only [Host.Core.run, hstep]

/-- Settles O5: each of the four conditions is one way to be refused by the decoder. -/
theorem contractViolationsAreRefused : Obligations.ContractViolationsAreRefused := by
  unfold Obligations.ContractViolationsAreRefused
  intro s cls z6 data addr src rest r hs hviolation
  have hdec : decode ⟨cls ++ z6 ++ data ++ addr, src⟩ = .refused r := by
    have hcls (h : cls.toNat < 2) : cls ≠ clsReserved ∧ cls ≠ clsAdv := by
      constructor <;> rintro rfl <;> exact absurd h (by decide)
    rcases hviolation with ⟨rfl, rfl⟩ | ⟨h, hz6, rfl⟩ | ⟨rfl, rfl, hdata, rfl⟩ | ⟨h, rfl, hdata, haddr, rfl⟩
    · exact decodeAt_reservedClass
    · exact decodeAt_nonzero_z6 (hcls h).1 (hcls h).2 hz6
    · exact decodeAt_nonzero_data hdata
    · exact decodeAt_unmapped (hcls h).1 (hcls h).2 hdata ((targetAt_default_eq_none_iff addr).2 haddr)
  have hstep := step_of_decode_refused hs hdec
  exact ⟨hstep, run_of_step_refused hstep⟩

/-- Settles O1: the vectors are words the encoder writes, and words with one of the refusal conditions. -/
theorem tableWordsDecodeAsTheSpecSays : Obligations.TableWordsDecodeAsTheSpecSays := by
  unfold Obligations.TableWordsDecodeAsTheSpecSays
  intro src
  have unmapped (a : Addr) (ha : targetAt Config.oamBase a = none) :
      decode ⟨rdWord a, src⟩ = .refused .unmappedAddress :=
    decodeAt_unmapped (by decide) (by decide) (fun _ => rfl) ha
  exact ⟨decode_rdWord_reg .ly src, decode_wrWord_reg .lcdc 0x91 src, decode_wrWord_reg .dma 0x00 src,
    decode_rdWord_vram 0x1FFF src, decode_wrWord_vram 0 0xAB src, decode_rdWord_oam 159 src,
    decodeAt_advWord _ 456 src, decodeAt_advWord _ 70224 src, decodeAt_reservedClass (z6 := 0) (data := 0) (addr := 0),
    decodeAt_nonzero_z6 (cls := clsRd) (z6 := 1) (data := 0) (addr := 0xFF40) (by decide) (by decide) (by decide),
    decodeAt_nonzero_data (data := 0x12) (addr := 0xFF40) (by decide : (0x12 : Byte) ≠ 0),
    unmapped 0xFF4C ((targetAt_default_eq_none_iff _).2 (by decide)),
    unmapped 0xFEA0 ((targetAt_default_eq_none_iff _).2 (by decide))⟩

/-- Settles O6: the step on a transaction that decodes. -/
theorem stepRunsTheDecodedTransaction : Obligations.StepRunsTheDecodedTransaction := by
  unfold Obligations.StepRunsTheDecodedTransaction
  exact fun s t rest i => step_of_decode_instr

/-- Settles O7: the step with nothing pending. -/
theorem stepWithNothingPendingIdles : Obligations.StepWithNothingPendingIdles := by
  unfold Obligations.StepWithNothingPendingIdles
  exact fun s => step_of_pending_nil

end Sys2Proof.Machine
end

section
/-! PROOFS. The transactions: what each kind of them can do to the state, and the rules over all of them
(spec/20_memory.md R66, spec/10_state.md R44, spec/60_exceptions.md R250). -/

namespace Sys2Proof.Machine

variable (s : State)

/-! ## The cases of a transaction -/

/-- The byte a read of a target returns (R181-R192, R221, R223). -/
def State.readTarget : Target → Byte
  | .reg r => s.busRead r
  | .vram o => s.memReadVram o.val
  | .oam o => s.memReadOam o.val

/-- What WR_DMA leaves: the byte stored, its request, and the copy (R199, R205). -/
def State.dmaWrite (v : Byte) (src : DmaBlock) : State := ((s.busWrite .dma v).emit [.dmaRequest v]).dmaCopy src

theorem exec_readOf (x : Target) : exec (readOf x) s = .next (s.returnByte (s.readTarget x)) := by
  cases x with
  | reg r => exact exec_readOf_reg s r
  | vram o => rfl
  | oam o => rfl

/-- What a transaction can do: one case per kind of transaction, with the state it answers from `s`. A write to LY is
a register write that stores LY as it stands (R197). -/
inductive ExecCase : Instr → State → Prop where
  | read (x : Target) : ExecCase (readOf x) (s.returnByte (s.readTarget x))
  | write (r : Reg) (v : Byte) (src : DmaBlock) (h : r ≠ .dma) : ExecCase (writeOf v src (.reg r)) (s.busWrite r v)
  | dma (v : Byte) (src : DmaBlock) : ExecCase (.wrDma v src) (s.dmaWrite v src)
  | vram (o : Fin 8192) (v : Byte) : ExecCase (.wrVram o v) (s.memWriteVram o.val v)
  | oam (o : Fin 160) (v : Byte) : ExecCase (.wrOam o v) (s.memWriteOam o.val v)
  | advance (n : Nat) : ExecCase (.advance n) (s.advance n)

/-- Every transaction answers a next state, by one of the cases. -/
theorem exec_answers (i : Instr) : ∃ t, exec i s = .next t ∧ ExecCase s i t := by
  rcases i.read_write_or_advance with ⟨x, rfl⟩ | ⟨v, src, x, rfl⟩ | ⟨n, rfl⟩
  · exact ⟨_, exec_readOf s x, .read x⟩
  · cases x with
    | reg r =>
      by_cases hdma : r = .dma
      · subst hdma
        exact ⟨_, exec_wrDma s v src, .dma v src⟩
      · exact ⟨_, exec_writeOf_reg s v r src hdma, .write r v src hdma⟩
    | vram o => exact ⟨_, exec_wrVram s v o, .vram o v⟩
    | oam o => exact ⟨_, exec_wrOam s v o, .oam o v⟩
  · exact ⟨_, exec_advance s n, .advance n⟩

variable {s}

theorem execCase_of_exec {i : Instr} {t : State} (h : exec i s = .next t) : ExecCase s i t := by
  obtain ⟨t', ht', hcase⟩ := exec_answers s i
  rw [h] at ht'
  exact Host.Outcome.next.inj ht' ▸ hcase

/-- What a step can do: nothing, or a transaction in the state with the oldest pending one taken. -/
theorem step_cases {t : State} (h : step s = .next t) : t = s ∨ ∃ i, exec i s.taken = .next t := by
  cases hs : s.pending with
  | nil =>
    rw [step_of_pending_nil hs] at h
    exact .inl (Host.Outcome.next.inj h).symm
  | cons txn rest =>
    cases hd : decode txn with
    | instr i =>
      have htaken : s.taken = { s with pending := rest, result := none } := by
        simp only [State.taken, hs, List.tail_cons]
      exact .inr ⟨i, by rw [htaken, ← step_of_decode_instr hs hd, h]⟩
    | refused r =>
      rw [step_of_decode_refused hs hd] at h
      cases h

/-! ## Only ADVANCE moves the sequencer (R26, R34, R37, R39, R43) -/

theorem State.busWrite_reg_ly (r : Reg) (v : Byte) : (s.busWrite r v).reg .ly = s.reg .ly := by
  cases r <;> rfl

theorem State.busWrite_modeSt (r : Reg) (v : Byte) : (s.busWrite r v).modeSt = s.modeSt := by
  cases r with
  | stat => exact statMode_statAfterWrite v (s.reg .stat)
  | _ => rfl

/-- The parts of the state that only ADVANCE writes. -/
structure SameSequencer (s t : State) : Prop where
  ly : t.reg .ly = s.reg .ly
  dot : t.dot = s.dot
  acc : t.acc = s.acc
  modeSt : t.modeSt = s.modeSt
  bgFifo : t.bgFifo = s.bgFifo
  objFifo : t.objFifo = s.objFifo
  fb : t.fb = s.fb

theorem ExecCase.sameSequencer {i : Instr} {t : State} (h : ExecCase s i t) (hi : ∀ n, i ≠ .advance n) :
    SameSequencer s t := by
  cases h with
  | read x => exact ⟨rfl, rfl, rfl, rfl, rfl, rfl, rfl⟩
  | write r v src _ => exact ⟨s.busWrite_reg_ly r v, rfl, rfl, s.busWrite_modeSt r v, rfl, rfl, rfl⟩
  | dma v src => exact ⟨rfl, rfl, rfl, rfl, rfl, rfl, rfl⟩
  | vram o v => exact ⟨rfl, rfl, rfl, rfl, rfl, rfl, rfl⟩
  | oam o v => exact ⟨rfl, rfl, rfl, rfl, rfl, rfl, rfl⟩
  | advance n => exact absurd rfl (hi n)

theorem SameSequencer.line {t : State} (h : SameSequencer s t) : t.line = s.line := congrArg BitVec.toNat h.ly

/-- Settles O22: the frame of every case but ADVANCE. -/
theorem onlyAdvanceMovesTheSequencer : Obligations.OnlyAdvanceMovesTheSequencer := by
  unfold Obligations.OnlyAdvanceMovesTheSequencer
  intro i s t hi h
  obtain ⟨hly, hdot, hacc, hmode, hbg, hobj, hfb⟩ := (execCase_of_exec h).sameSequencer hi
  have hstat : t.regs.stat.toNat % 4 = s.regs.stat.toNat % 4 := by
    rw [toNat_mod_four, toNat_mod_four]
    exact congrArg (fun m => (modeBits m).toNat) hmode
  exact ⟨hly, hdot, hacc, hstat, hbg, hobj, hfb⟩

/-! ## Given twice (R66) -/

theorem statAfterWrite_idem (v w : Byte) : statAfterWrite v (statAfterWrite v w) = statAfterWrite v w := by
  refine BitVec.eq_of_getLsbD_eq fun i _ => ?_
  by_cases hi : i < 2
  · rw [statAfterWrite_low _ _ _ hi]
  · rw [statAfterWrite_high _ _ _ (by omega), statAfterWrite_high _ _ _ (by omega)]

theorem State.busWrite_busWrite (r : Reg) (v : Byte) : (s.busWrite r v).busWrite r v = s.busWrite r v := by
  cases r with
  | stat => exact congrArg (s.setReg .stat) (statAfterWrite_idem v (s.reg .stat))
  | _ => rfl

theorem State.memWriteVram_memWriteVram (o : Nat) (v : Byte) :
    (s.memWriteVram o v).memWriteVram o v = s.memWriteVram o v := by
  cases hgate : vramOpen s.modeEff with
  | false => rw [s.memWriteVram_closed v o hgate, s.memWriteVram_closed v o hgate]
  | true =>
    have hagain := State.memWriteVram_open (s.setVram (s.vram.writeByte o v)) v o hgate
    rw [s.memWriteVram_open v o hgate, hagain, State.setVram_vram, Memory.writeByte_writeByte]
    rfl

theorem State.memWriteOam_memWriteOam (o : Nat) (v : Byte) :
    (s.memWriteOam o v).memWriteOam o v = s.memWriteOam o v := by
  cases hgate : oamOpen s.modeEff with
  | false => rw [s.memWriteOam_closed v o hgate, s.memWriteOam_closed v o hgate]
  | true =>
    have hagain := State.memWriteOam_open (s.setOam (s.oam.writeByte o v)) v o hgate
    rw [s.memWriteOam_open v o hgate, hagain, State.setOam_oam, Memory.writeByte_writeByte]
    rfl

/-- No read looks at the byte last returned. -/
theorem State.readTarget_returnByte (v : Byte) (x : Target) : (s.returnByte v).readTarget x = s.readTarget x := by
  cases x <;> rfl

/-- Settles O23: a second read returns the same byte, and a second write of a byte at a place stores it again. -/
theorem accessesAreIdempotent : Obligations.AccessesAreIdempotent := by
  unfold Obligations.AccessesAreIdempotent
  intro i s t hadv hdma h
  cases execCase_of_exec h with
  | read x =>
    rw [exec_readOf, State.readTarget_returnByte]
    rfl
  | write r v src hr => rw [exec_writeOf_reg _ _ _ _ hr, State.busWrite_busWrite]
  | dma v src => exact absurd rfl (hdma v src)
  | vram o v => rw [exec_wrVram, State.memWriteVram_memWriteVram]
  | oam o v => rw [exec_wrOam, State.memWriteOam_memWriteOam]
  | advance n => exact absurd rfl (hadv n)

/-! ## The trace and the queue (R44, R250, R252) -/

theorem writeOf_reg_ne_wrDma {r : Reg} (hr : r ≠ .dma) (v v' : Byte) (src src' : DmaBlock) :
    writeOf v src (.reg r) ≠ .wrDma v' src' := by
  cases r with
  | dma => exact absurd rfl hr
  | _ => exact nofun

/-- Settles O24: the events of each case. -/
theorem traceOnlyGrows : Obligations.TraceOnlyGrows := by
  unfold Obligations.TraceOnlyGrows
  intro i s t h
  have unchanged (u : State) (hu : u.trace = s.trace) : u.trace = s.trace ++ [] := hu.trans (List.append_nil _).symm
  cases execCase_of_exec h with
  | read x => exact ⟨[], unchanged _ rfl, fun _ _ => rfl, fun v src hi => absurd hi (readOf_ne_wrDma x v src)⟩
  | write r v src hr =>
    exact ⟨[], unchanged _ rfl, fun _ _ => rfl, fun v' src' hi => absurd hi (writeOf_reg_ne_wrDma hr v v' src src')⟩
  | dma v src =>
    refine ⟨[.dmaRequest v], rfl, fun _ hdma => absurd rfl (hdma v src), fun v' src' hi => ?_⟩
    cases hi
    rfl
  | vram o v => exact ⟨[], unchanged _ rfl, fun _ _ => rfl, nofun⟩
  | oam o v => exact ⟨[], unchanged _ rfl, fun _ _ => rfl, nofun⟩
  | advance n =>
    obtain ⟨es, hes⟩ := s.advance_grows n
    exact ⟨es, hes, fun hadv => absurd rfl (hadv n), nofun⟩

/-- Settles O25: no case touches the queue. -/
theorem everyTransactionCompletes : Obligations.EveryTransactionCompletes := by
  unfold Obligations.EveryTransactionCompletes
  intro i s
  obtain ⟨t, e, hcase⟩ := exec_answers s i
  refine ⟨t, e, ?_⟩
  cases hcase with
  | read x => rfl
  | write r v src _ => rfl
  | dma v src => rfl
  | vram o v => rfl
  | oam o v => rfl
  | advance n => exact s.advance_pending n

end Sys2Proof.Machine
end

section
/-! PROOFS. The reachable-state invariant (spec/10_state.md R46): every step keeps it, reset meets it
(spec/70_reset_and_hazards.md R280), and so does every state reached. -/

namespace Sys2Proof.Machine

variable {s : State}

/-! ## The invariant of R46 -/

theorem Memory.wf_ite {size : Nat} {c : Bool} {m m' : Memory} (h : m.wf size = true) (h' : m'.wf size = true) :
    (if c then m else m' : Memory).wf size = true := by
  cases c
  · exact h'
  · exact h

/-- No transaction but ADVANCE takes VRAM or OAM out of the canonical form: every write is inside its buffer. -/
theorem ExecCase.buffers_wf {i : Instr} {t : State} (h : ExecCase s i t) (hv : s.vram.wf Config.vramSize = true)
    (ho : s.oam.wf Config.oamSize = true) :
    t.vram.wf Config.vramSize = true ∧ t.oam.wf Config.oamSize = true := by
  cases h with
  | read x => exact ⟨hv, ho⟩
  | write r v src _ => exact ⟨hv, ho⟩
  | dma v src => exact ⟨hv, dmaCopied_wf _ _ _ src ho⟩
  | vram o v => exact ⟨Memory.wf_ite (Memory.writeByte_wf _ _ _ v hv o.isLt) hv, ho⟩
  | oam o v => exact ⟨hv, Memory.wf_ite (Memory.writeByte_wf _ _ _ v ho o.isLt) ho⟩
  | advance n => exact ⟨s.advance_vram n ▸ hv, s.advance_oam n ▸ ho⟩

/-- The row a dot step renders is a visible one, so the frame buffer stays canonical (R43, R105). -/
theorem State.dotStep_fb_wf (h : s.fb.wf = true) : s.dotStep.fb.wf = true := by
  rw [State.dotStep_fb]
  split
  next hdraw =>
    obtain ⟨hvisible, -⟩ := (target_drawing_iff _ _).1 hdraw.1
    exact s.setFbRow_wf _ _ h hvisible (renderRow_length _ _ _)
  next => exact h

theorem State.Inv.lycCheck (h : s.Inv) : s.lycCheck.Inv :=
  ⟨h.dot_step, h.dot_le, h.line_le, h.acc_le, h.vram_wf, h.oam_wf, h.fb_wf⟩

theorem State.Inv.setAcc (h : s.Inv) (a : Nat) (ha : a ≤ 3) : (s.setAcc a).Inv :=
  ⟨h.dot_step, h.dot_le, h.line_le, ha, h.vram_wf, h.oam_wf, h.fb_wf⟩

theorem State.Inv.dotStep (h : s.Inv) : s.dotStep.Inv := by
  obtain ⟨hdot, hle, hline⟩ := (s.dotStep_place h.inFrame).1
  refine ⟨hdot, hle, hline, ?_, ?_, ?_, State.dotStep_fb_wf h.fb_wf⟩
  · rw [State.dotStep_acc]
    exact h.acc_le
  · rw [State.dotStep_vram]
    exact h.vram_wf
  · rw [State.dotStep_oam]
    exact h.oam_wf

theorem State.Inv.advance (h : s.Inv) (n : Nat) : (s.advance n).Inv :=
  s.advance_keeps (P := State.Inv) (fun _ => State.Inv.lycCheck) (fun _ => State.Inv.dotStep)
    (fun _ => State.Inv.setAcc) n h

/-- Every transaction keeps the invariant. -/
theorem State.Inv.exec {i : Instr} {t : State} (h : s.Inv) (e : exec i s = .next t) : t.Inv := by
  have hcase := execCase_of_exec e
  by_cases hi : ∀ n, i ≠ .advance n
  · have hsame := hcase.sameSequencer hi
    obtain ⟨hv, ho⟩ := hcase.buffers_wf h.vram_wf h.oam_wf
    exact ⟨hsame.dot ▸ h.dot_step, hsame.dot ▸ h.dot_le, hsame.line ▸ h.line_le, hsame.acc ▸ h.acc_le,
      hv, ho, hsame.fb ▸ h.fb_wf⟩
  · obtain ⟨n, rfl⟩ := not_forall_not.1 hi
    cases e
    exact h.advance n

theorem State.Inv.taken (h : s.Inv) : s.taken.Inv :=
  ⟨h.dot_step, h.dot_le, h.line_le, h.acc_le, h.vram_wf, h.oam_wf, h.fb_wf⟩

/-- Settles O48: a step is nothing or a transaction, and both keep the invariant. -/
theorem everyStepKeepsTheInvariant : Obligations.EveryStepKeepsTheInvariant := by
  unfold Obligations.EveryStepKeepsTheInvariant
  intro s t hinv h
  rcases step_cases h with rfl | ⟨i, e⟩
  · exact hinv
  · exact hinv.taken.exec e

/-! ## The stored mode of the position (R46, R106) -/

theorem State.Synced.advance (h : s.Synced) (n : Nat) : (s.advance n).Synced :=
  s.advance_keeps (P := State.Synced) (fun _ => State.Synced.lycCheck) (fun _ _ => State.dotStep_synced _)
    (fun _ h _ _ => h) n h

/-- Every transaction keeps the stored mode that of the position. -/
theorem State.Synced.exec {i : Instr} {t : State} (h : s.Synced) (e : exec i s = .next t) : t.Synced := by
  by_cases hi : ∀ n, i ≠ .advance n
  · have hsame := (execCase_of_exec e).sameSequencer hi
    rw [State.Synced, hsame.modeSt, hsame.line, hsame.dot]
    exact h
  · obtain ⟨n, rfl⟩ := not_forall_not.1 hi
    cases e
    exact h.advance n

/-- Settles O49: a step is nothing or a transaction, and both keep the mode that of the position. -/
theorem everyStepKeepsTheModeOfThePosition : Obligations.EveryStepKeepsTheModeOfThePosition := by
  unfold Obligations.EveryStepKeepsTheModeOfThePosition
  intro s t hsync h
  rcases step_cases h with rfl | ⟨i, e⟩
  · exact hsync
  · exact State.Synced.exec (s := s.taken) hsync e

/-! ## Reached states (R46, R280) -/

/-- A draw that R280 admits resets into the invariant. -/
theorem ResetDraw.Fits.inv {d : ResetDraw} (h : d.Fits) : (State.resetWith d).Inv :=
  ⟨rfl, Nat.zero_le _, h.line_le, Nat.zero_le _, h.vram_wf, h.oam_wf, h.fb_wf⟩

/-- The model's own draw is one that R280 admits. -/
theorem ResetDraw.default_fits : ResetDraw.default.Fits := ⟨by decide, rfl, rfl, rfl⟩

/-- Settles O9: for every draw, and so for the model's own. -/
theorem resetMeetsTheInvariant : Obligations.ResetMeetsTheInvariant := by
  unfold Obligations.ResetMeetsTheInvariant
  exact ⟨fun d h => h.inv, ResetDraw.default_fits.inv⟩

/-- Settles O8: reset copies the draw and clears the rest; the default draw holds the table of R47. -/
theorem resetLeavesTheSpecsValues : Obligations.ResetLeavesTheSpecsValues := by
  unfold Obligations.ResetLeavesTheSpecsValues
  refine ⟨fun d => ⟨rfl, rfl, rfl, rfl, rfl, rfl, rfl, rfl, rfl⟩, ?_⟩
  exact ⟨rfl, rfl, rfl, rfl, rfl, rfl, rfl, rfl, rfl, rfl, rfl, rfl, rfl⟩

/-- An ADVANCE that runs a dot step leaves the mode of the position, whatever mode stood there before. -/
theorem State.advance_synced_of_stepsDots (n : Nat) (h : s.stepsDots (.advance n) = true) : (s.advance n).Synced := by
  obtain ⟨hl, hacc⟩ : s.lcdOn = true ∧ 4 ≤ s.acc + n := by simpa [State.stepsDots] using h
  obtain ⟨k, hk⟩ : ∃ k, (s.acc + n) / 4 = k + 1 := Nat.exists_eq_add_one.2 (by omega)
  rw [State.advance_on _ _ hl, hk, Function.iterate_succ_apply']
  exact State.dotStep_synced _

theorem stepsDots_eq_true {i : Instr} (h : s.stepsDots i = true) : ∃ n, i = .advance n := by
  cases i with
  | advance n => exact ⟨n, rfl⟩
  | _ => cases h

/-- Where a transaction that does not enable the LCD leaves it on, it was on before (R119). -/
theorem lcdOn_of_not_enablesLcd {i : Instr} {t : State} (e : exec i s = .next t) (ht : t.lcdOn = true)
    (hi : s.enablesLcd i = false) : s.lcdOn = true := by
  cases execCase_of_exec e with
  | read x => exact ht
  | write r v src _ =>
    by_cases hr : r = .lcdc
    · subst hr
      have hen : (!s.lcdOn && lcdEnable v) = false := hi
      have hv : lcdEnable v = true := ht
      simpa [hv] using hen
    · have hkept : (s.busWrite r v).reg .lcdc = s.reg .lcdc := s.setReg_reg_other r .lcdc _ (Ne.symm hr)
      exact (congrArg lcdEnable hkept).symm.trans ht
  | dma v src => exact ht
  | vram o v => exact ht
  | oam o v => exact ht
  | advance n => exact (s.advance_lcdOn n).symm.trans ht

/-- The whole of R46, by induction over the transactions since reset. -/
theorem Reached.inv {b : Bool} (h : Reached b s) : s.Inv ∧ (s.lcdOn = true → b = true → s.Synced) := by
  induction h with
  | reset d h => exact ⟨h.inv, nofun⟩
  | @txn b s t i _ e ih =>
    refine ⟨ih.1.exec e, fun hl hb => ?_⟩
    cases hen : s.enablesLcd i with
    | true => simp [hen] at hb
    | false =>
      have hb : b = true ∨ s.stepsDots i = true := by simpa [hen] using hb
      rcases hb with hb | hb
      · exact (ih.2 (lcdOn_of_not_enablesLcd e hl hen) hb).exec e
      · obtain ⟨n, rfl⟩ := stepsDots_eq_true hb
        cases e
        exact State.advance_synced_of_stepsDots n hb

/-- Settles O50: the fields of the invariant of `Reached.inv`. -/
theorem reachedStatesMeetTheSpecsInvariant : Obligations.ReachedStatesMeetTheSpecsInvariant := by
  unfold Obligations.ReachedStatesMeetTheSpecsInvariant
  intro b s h
  obtain ⟨hinv, hsync⟩ := h.inv
  exact ⟨hinv.dot_step, hinv.dot_le, hinv.line_le, hinv.acc_le, hsync⟩

end Sys2Proof.Machine
end

section
/-! PROOFS. The register bank and the gate (spec/42_register_bank.md, spec/43_vram_oam_gate.md): the reads and writes
left, the DMA write (R199, R205), and the effective mode (R35, R226). -/

namespace Sys2Proof.Machine

variable (s : State) (v : Byte)

/-! ## Plain reads and writes (R181-R204) -/

/-- Settles O12: each of the four registers has no read rule of its own. -/
theorem lyDmaAndObjectPaletteReads : Obligations.LyDmaAndObjectPaletteReads := by
  unfold Obligations.LyDmaAndObjectPaletteReads
  intro s
  have read (r : Reg) (hr : r ≠ .stat) : exec (readOf (.reg r)) s = .next (s.returnByte (s.reg r)) := by
    rw [exec_readOf_reg, State.busRead_of_ne_stat _ _ hr]
  exact ⟨read .ly nofun, read .dma nofun, read .obp0 nofun, read .obp1 nofun⟩

/-- Settles O14: each of the eight registers has no write rule of its own. -/
theorem plainRegisterWritesStoreTheByte : Obligations.PlainRegisterWritesStoreTheByte := by
  unfold Obligations.PlainRegisterWritesStoreTheByte
  intro s v
  have write (r : Reg) (hstat : r ≠ .stat) (hly : r ≠ .ly) (hdma : r ≠ .dma) :
      exec (writeOf v zeroBlock (.reg r)) s = .next (s.setReg r v) := by
    rw [exec_writeOf_reg _ _ _ _ hdma, State.busWrite, State.busStored_of_plain _ _ _ hstat hly]
  exact ⟨write .lcdc nofun nofun nofun, write .scy nofun nofun nofun, write .scx nofun nofun nofun,
    write .bgp nofun nofun nofun, write .obp0 nofun nofun nofun, write .obp1 nofun nofun nofun,
    write .wy nofun nofun nofun, write .wx nofun nofun nofun⟩

/-- Settles O13: the byte is `statReadValue`, STAT with the effective mode put in. -/
theorem statReadReturnsTheEffectiveMode : Obligations.StatReadReturnsTheEffectiveMode := by
  unfold Obligations.StatReadReturnsTheEffectiveMode
  intro s
  exact ⟨statReadValue s.regs.lcdc s.regs.stat, exec_rdStat s,
    fun i hi => statWithMode_high s.regs.stat _ i hi, fun i hi => statReadValue_low s.regs.lcdc s.regs.stat i hi⟩

/-! ## The DMA write (R199, R205) -/

/-- Byte `i` of OAM after the copy: the side input's, unless the gate is asked and closed. -/
theorem dmaCopied_readByte_lt (gated : Bool) (m : Mode) (oam : Memory) (src : DmaBlock) (i : Fin 160) :
    (dmaCopied gated m oam src).readByte i.val =
      if (gated && !oamOpen m) = true then oam.readByte i.val else src[i] := by
  have hi : src.toList[i.val]? = some src[i] := by simp
  rw [dmaCopied_readByte, hi]
  cases oamOpen m <;> cases gated <;> rfl

/-- The copy writes nothing past its 160 bytes. -/
theorem dmaCopied_readByte_ge (gated : Bool) (m : Mode) (oam : Memory) (src : DmaBlock) (o : Nat) (ho : 160 ≤ o) :
    (dmaCopied gated m oam src).readByte o = oam.readByte o := by
  have hnone : src.toList[o]? = none := List.getElem?_eq_none (by simpa using ho)
  rw [dmaCopied_readByte, hnone]
  exact ite_self _

/-- Settles O18: the bytes of `dmaCopied`, with the gate of the effective mode. -/
theorem dmaWriteCopiesTheSideInput : Obligations.DmaWriteCopiesTheSideInput := by
  unfold Obligations.DmaWriteCopiesTheSideInput
  intro s v src
  refine ⟨dmaCopied Config.dmaGated s.modeEff s.oam src, exec_wrDma s v src, fun i => ?_,
    dmaCopied_readByte_ge _ _ _ src⟩
  rw [dmaCopied_readByte_lt, State.oamOpen_modeEff, Bool.not_not, Bool.and_assoc]
  rfl

/-! ## The effective mode and the gate (R35, R226) -/

/-- Settles O19: the effective mode by LCDC[7], and the gate mode by mode. -/
theorem gateTable : Obligations.GateTable := by
  unfold Obligations.GateTable
  intro s
  refine ⟨fun hoff => ?_, fun hon => ?_, by decide⟩
  · have hl : s.lcdOn = false := hoff
    rw [State.modeEff_eq, hl]
    rfl
  · have hl : s.lcdOn = true := hon
    rw [State.modeEff_eq, hl]
    exact (toNat_mod_four s.regs.stat).symm

end Sys2Proof.Machine
end

section
/-! PROOFS. ADVANCE call by call (spec/40_mode_state_machine.md section 1 to 4): what it leaves alone, the LCD off, the
comparator, and one dot step. -/

namespace Sys2Proof.Machine

variable (s : State)

/-! ## The frame of ADVANCE (R82, R100) -/

/-- Settles O27: the frame of ADVANCE. -/
theorem advanceLeavesTheBuffersAlone : Obligations.AdvanceLeavesTheBuffersAlone := by
  unfold Obligations.AdvanceLeavesTheBuffersAlone
  intro s n
  exact ⟨s.advance n, exec_advance s n, fun o => congrArg (·.readByte o) (s.advance_vram n),
    fun o => congrArg (·.readByte o) (s.advance_oam n), s.advance_vram n, s.advance_oam n, s.advance_result n,
    s.advance_pending n⟩

/-! ## The LCD off (R101, R119) -/

theorem exec_advance_off (n : Nat) (h : s.lcdOn = false) : exec (.advance n) s = .next s := by
  rw [exec_advance, State.advance_off _ _ h]

/-- Settles O28: ADVANCE with the LCD off. -/
theorem advanceIsInertWithTheLcdOff : Obligations.AdvanceIsInertWithTheLcdOff := by
  unfold Obligations.AdvanceIsInertWithTheLcdOff
  exact exec_advance_off

/-- Settles O29: ADVANCE finds the LCD off, and the second write undoes the first. -/
theorem lcdOffAndOnResumes : Obligations.LcdOffAndOnResumes := by
  unfold Obligations.LcdOffAndOnResumes
  intro s off n hoff
  exact ⟨s.busWrite .lcdc off, exec_wrLcdc s off, exec_advance_off _ n hoff, exec_wrLcdc _ s.regs.lcdc⟩

/-! ## The comparator (R102, R286) -/

/-- Settles O30: `State.advance_on`, with the accumulator put in as a record update. -/
theorem advanceIsTheCheckThenTheDotSteps : Obligations.AdvanceIsTheCheckThenTheDotSteps := by
  unfold Obligations.AdvanceIsTheCheckThenTheDotSteps
  intro s n hl
  rw [exec_advance, State.advance_on _ _ hl]
  rfl

/-- The request of the comparator, as R102 states its condition. -/
theorem lycEvents_eq : lycEvents s =
    if s.regs.ly = s.regs.lyc ∧ s.regs.stat.getLsbD 6 = true then [.interrupt .lcdStat] else [] := by
  refine if_congr ?_ rfl rfl
  show (s.regs.ly == s.regs.lyc && s.regs.stat.getLsbD 6) = true ↔ _
  rw [Bool.and_eq_true, beq_iff_eq]

/-- Settles O31: the comparator alone, as `State.advance_short` has it. -/
theorem lycCheckSetsTheFlagAndRequests : Obligations.LycCheckSetsTheFlagAndRequests := by
  unfold Obligations.LycCheckSetsTheFlagAndRequests
  intro s n hl hacc
  refine ⟨statWithCoincidence s.regs.stat (s.regs.ly == s.regs.lyc), ?_, ?_,
    statWithCoincidence_other s.regs.stat _⟩
  · rw [exec_advance, State.advance_short _ _ hl hacc, ← lycEvents_eq]
    rfl
  · exact (coincidence_statWithCoincidence _ _).trans (beq_eq_decide _ _)

/-- Settles O32: the comparator's request comes before whatever the dot steps add. -/
theorem everyCallRequestsWhileLyEqualsLyc : Obligations.EveryCallRequestsWhileLyEqualsLyc := by
  unfold Obligations.EveryCallRequestsWhileLyEqualsLyc
  intro s n hl heq hen
  obtain ⟨es, hes⟩ := s.lycCheck.dotSteps_grow ((s.acc + n) / 4)
  refine ⟨s.advance n, es, exec_advance s n, ?_⟩
  rw [State.advance_on _ _ hl, State.setAcc_trace, hes, State.lycCheck_trace, lycEvents_eq, if_pos ⟨heq, hen⟩,
    List.append_assoc]
  rfl

/-! ## One dot step (R104-R112) -/

/-- An ADVANCE with one dot step's cycles in hand. -/
theorem exec_advance_one (n : Nat) (hl : s.lcdOn = true) (h : 4 ≤ s.acc + n) (h' : s.acc + n < 8) :
    exec (.advance n) s = .next (s.lycCheck.dotStep.setAcc (s.acc + n - 4)) := by
  rw [exec_advance, State.advance_one _ _ hl h h']

/-- STAT modulo 4 of a state in the mode of its position, in numbers (R105). -/
theorem State.Synced.stat_mod_four {s : State} (h : s.Synced) : s.regs.stat.toNat % 4 =
    if 144 ≤ s.regs.ly.toNat then 1 else if s.dot < 80 then 2 else if s.dot < 252 then 3 else 0 := by
  rw [toNat_mod_four]
  show (modeBits s.modeSt).toNat = _
  rw [show s.modeSt = _ from h, target_number]
  rfl

/-- Settles O33: `State.dotStep_position` from the state after the comparator, which moves nothing. -/
theorem dotStepMovesThePosition : Obligations.DotStepMovesThePosition := by
  unfold Obligations.DotStepMovesThePosition
  intro s n hl hacc hacc' hline
  have hmode := State.Synced.stat_mod_four (s := s.lycCheck.dotStep.setAcc (s.acc + n - 4)) (State.dotStep_synced _)
  refine ⟨_, exec_advance_one s n hl hacc hacc', rfl, and_assoc.1 ⟨?_, hmode⟩⟩
  rcases s.lycCheck.dotStep_position hline with ⟨hin, hdot, hln⟩ | ⟨hend, hlt, hdot, hln⟩ | ⟨hend, hlast, hdot, hln⟩
  · exact ⟨fun _ => ⟨hdot, BitVec.eq_of_toNat_eq hln⟩, fun hend => absurd hin hend.not_gt⟩
  · exact ⟨fun hin => absurd hin hend.not_gt, fun _ => ⟨hdot, fun _ => hln, fun hlast => absurd hlast hlt.ne⟩⟩
  · exact ⟨fun hin => absurd hin hend.not_gt,
      fun _ => ⟨hdot, fun hlt => absurd hlast hlt.ne, fun _ => BitVec.eq_of_toNat_eq hln⟩⟩

/-- The events of a mode's entry, chosen by the number of the mode. -/
theorem entryEvents_eq (stat : Byte) (m : Mode) : entryEvents stat m =
    if (modeBits m).toNat = 2 then (if stat.getLsbD 5 = true then [Event.interrupt .lcdStat] else [])
    else if (modeBits m).toNat = 0 then (if stat.getLsbD 3 = true then [Event.interrupt .lcdStat] else [])
    else if (modeBits m).toNat = 1 then
      [Event.interrupt .vblank] ++ (if stat.getLsbD 4 = true then [Event.interrupt .lcdStat] else []) ++
        [Event.notifyVblankEntry]
    else [] := by
  cases m <;> rfl

/-- The comparator changes no enable of a mode entry. -/
theorem entryEvents_statWithCoincidence (stat : Byte) (b : Bool) (m : Mode) :
    entryEvents (statWithCoincidence stat b) m = entryEvents stat m := by
  simp only [entryEvents_eq, statWithCoincidence_other stat b 5 (by decide),
    statWithCoincidence_other stat b 4 (by decide), statWithCoincidence_other stat b 3 (by decide)]

/-- Settles O34: the comparator's events, then those of `State.dotStep_trace`, in the mode numbers of STAT. -/
theorem modeEntriesEmitTheirEvents : Obligations.ModeEntriesEmitTheirEvents := by
  unfold Obligations.ModeEntriesEmitTheirEvents
  intro s n hl hacc hacc'
  refine ⟨_, exec_advance_one s n hl hacc hacc', ?_⟩
  have hnew : (s.lycCheck.dotStep.setAcc (s.acc + n - 4)).regs.stat.toNat % 4 =
      (modeBits s.lycCheck.dotStep.modeSt).toNat := toNat_mod_four _
  have hold : s.regs.stat.toNat % 4 = (modeBits s.modeSt).toNat := toNat_mod_four _
  rw [hnew, hold, State.setAcc_trace, State.dotStep_trace, ← State.dotStep_modeSt, State.lycCheck_trace,
    State.lycCheck_modeSt, State.lycCheck_reg_stat, entryEvents_statWithCoincidence, lycEvents_eq, entryEvents_eq]
  simp only [modeBits_inj]
  rfl

end Sys2Proof.Machine
end

section
/-! PROOFS. Lines and frames (spec/40_mode_state_machine.md section 5): where ADVANCE takes the position, the modes of a
visible line (R113), the events (R116) and the rows (R108, R155) of a frame, and the first dots after reset (R281). -/

namespace Sys2Proof.Machine

variable (s : State)

/-! ## The place in the frame (R115) -/

/-- Where ADVANCE takes the position: 4 dots on for every whole 4 cycles, the rest left in the accumulator. -/
theorem State.advance_place (n : Nat) (hl : s.lcdOn = true) (h : s.InFrame) :
    (s.advance n).InFrame ∧ (s.advance n).place = (s.place + 4 * ((s.acc + n) / 4)) % 70224 ∧
      (s.advance n).acc = (s.acc + n) % 4 := by
  obtain ⟨hframe, hplace⟩ := s.lycCheck.dotSteps_place ((s.acc + n) / 4) h.lycCheck
  rw [State.advance_on _ _ hl]
  exact ⟨⟨hframe.dot_step, hframe.dot_le, hframe.line_le⟩, hplace, rfl⟩

/-- Settles O37: the place of `State.advance_place`, in LY and dot. -/
theorem advanceMovesThePlaceInTheFrame : Obligations.AdvanceMovesThePlaceInTheFrame := by
  unfold Obligations.AdvanceMovesThePlaceInTheFrame
  intro s n hinv hl
  obtain ⟨hframe, hplace, hacc⟩ := s.advance_place n hl hinv.inFrame
  exact ⟨s.advance n, exec_advance s n, hacc, Nat.lt_succ_of_le (hframe.dot_le.trans (by decide)), hplace⟩

/-! ## A visible line (R113) -/

/-- Mode 2 at dot 0 is the mode of the position on a visible line. -/
theorem State.synced_of_line_start (hdot : s.dot = 0) (hline : s.line < 144) (hmode : s.regs.stat.toNat % 4 = 2) :
    s.Synced := by
  rw [State.Synced, ← modeBits_inj, target_number, if_neg (by omega), if_pos (by omega)]
  exact (toNat_mod_four s.regs.stat).symm.trans hmode

/-- Settles O36: the place says how far along the line, and the mode is that of the position. -/
theorem visibleLineGoesTwoThreeZero : Obligations.VisibleLineGoesTwoThreeZero := by
  unfold Obligations.VisibleLineGoesTwoThreeZero
  intro s k hl hline hdot hacc hmode hk
  have hly : s.line < 144 := hline
  have hframe : s.InFrame := ⟨by omega, by omega, by omega⟩
  obtain ⟨⟨-, hdot_le, -⟩, hplace, hacc_eq⟩ := s.advance_place (4 * k) hl hframe
  have hstat := ((s.synced_of_line_start hdot hline hmode).advance (4 * k)).stat_mod_four
  change _ = if 144 ≤ (s.advance (4 * k)).line then _ else _ at hstat
  simp only [State.place] at hplace
  refine ⟨s.advance (4 * k), exec_advance s _, by omega, fun hlt => ?_, fun heq => ?_⟩
  · have hline_eq : (s.advance (4 * k)).line = s.line := by omega
    have hdot_eq : (s.advance (4 * k)).dot = 4 * k := by omega
    refine ⟨BitVec.eq_of_toNat_eq hline_eq, hdot_eq, ?_⟩
    rw [hstat, hline_eq, hdot_eq]
    split_ifs <;> omega
  · have hline_eq : (s.advance (4 * k)).line = s.line + 1 := by omega
    have hdot_eq : (s.advance (4 * k)).dot = 0 := by omega
    refine ⟨hline_eq, hdot_eq, ?_⟩
    change _ = if s.line = 143 then 1 else 2
    rw [hstat, hline_eq, hdot_eq]
    split_ifs <;> omega

/-! ## The events of dot steps (R116) -/

/-- The events of an arrival depend on STAT's enables alone, and dot steps keep them. -/
theorem arrivalEvents_dotSteps (k line dot : Nat) :
    arrivalEvents ((State.dotStep^[k] s).reg .stat) line dot = arrivalEvents (s.reg .stat) line dot := by
  simp only [arrivalEvents, oamScanIrqEnable, vblankIrqEnable, hblankIrqEnable, s.dotSteps_stat_high k 3 (by decide),
    s.dotSteps_stat_high k 4 (by decide), s.dotSteps_stat_high k 5 (by decide)]

/-- The events of the place that the `k`th dot step arrives at. -/
def eventsAt (k : Nat) : List Event :=
  arrivalEvents (s.reg .stat) (State.dotStep^[k] s).line (State.dotStep^[k] s).dot

/-- From a synced state, dot steps emit the events of the places they arrive at, in order. -/
theorem State.dotSteps_trace (h : s.InFrame) (hs : s.Synced) (k : Nat) :
    (State.dotStep^[k] s).trace = s.trace ++ (List.range k).flatMap fun j => eventsAt s (j + 1) := by
  induction k with
  | zero => exact (List.append_nil _).symm
  | succ k ih =>
    rw [Function.iterate_succ_apply', State.dotStep_trace_synced _ (s.dotSteps_place k h).1 (hs.dotSteps k),
      arrivalEvents_dotSteps, ih, List.append_assoc, List.range_succ, List.flatMap_append, List.flatMap_singleton,
      eventsAt, Function.iterate_succ_apply']

/-! ### Counting them over a frame

From the start of a frame, dot step `k` arrives at place `4 * k`, and `17556` dot steps are the frame. -/

/-- Of the first `k` dot steps of a frame, those that arrive at the start of H-Blank, dot 252 of a visible line. -/
def hblankArrivals (k : Nat) : Nat := min 144 ((k + 51) / 114)

/-- Those that arrive at dot 0 of a visible line: lines 1 to 143, and line 0 at the frame's end. -/
def oamScanArrivals (k : Nat) : Nat := min 143 (k / 114) + k / 17556

/-- Those that arrive at the start of V-Blank, dot 0 of line 144. -/
def vblankArrivals (k : Nat) : Nat := k / 16416

section Arrivals

variable {k line dot : Nat} (hk : k < 17556) (hdot : dot ≤ 452) (hplace : 456 * line + dot = (4 * (k + 1)) % 70224)
include hk hdot hplace

theorem hblankArrivals_succ :
    hblankArrivals (k + 1) = hblankArrivals k + if line < 144 ∧ dot = 252 then 1 else 0 := by
  unfold hblankArrivals
  split <;> omega

theorem oamScanArrivals_succ :
    oamScanArrivals (k + 1) = oamScanArrivals k + if line < 144 ∧ dot = 0 then 1 else 0 := by
  unfold oamScanArrivals
  split <;> omega

theorem vblankArrivals_succ :
    vblankArrivals (k + 1) = vblankArrivals k + if line = 144 ∧ dot = 0 then 1 else 0 := by
  unfold vblankArrivals
  split <;> omega

end Arrivals

theorem count_lcdStatIf_self (en : Bool) : (lcdStatIf en).count (.interrupt .lcdStat) = en.toNat := by
  cases en <;> rfl

theorem count_lcdStatIf_of_ne (en : Bool) (e : Event) (h : e ≠ .interrupt .lcdStat) : (lcdStatIf en).count e = 0 := by
  cases en
  · rfl
  · exact List.count_eq_zero.2 fun hmem => h (List.mem_singleton.1 hmem)

/-- The LCD_STAT requests of an arrival, by the enable of the place arrived at. -/
theorem count_lcdStat_arrivalEvents (stat : Byte) (line dot : Nat) :
    (arrivalEvents stat line dot).count (.interrupt .lcdStat) =
      (hblankIrqEnable stat).toNat * (if line < 144 ∧ dot = 252 then 1 else 0) +
      (oamScanIrqEnable stat).toNat * (if line < 144 ∧ dot = 0 then 1 else 0) +
      (vblankIrqEnable stat).toNat * (if line = 144 ∧ dot = 0 then 1 else 0) := by
  have hvblank : (Event.interrupt .vblank :: (lcdStatIf (vblankIrqEnable stat) ++ [.notifyVblankEntry])).count
      (.interrupt .lcdStat) = (vblankIrqEnable stat).toNat := by
    rw [List.count_cons_of_ne (by decide), List.count_append, count_lcdStatIf_self]
    rfl
  unfold arrivalEvents
  simp only [apply_ite (List.count (Event.interrupt .lcdStat)), hvblank, count_lcdStatIf_self, List.count_nil, mul_ite,
    mul_one, mul_zero]
  split_ifs <;> omega

/-- The events no enable of STAT asks for: one of each at the entry of V-Blank (D7, D9). -/
theorem count_vblank_arrivalEvents (stat : Byte) (line dot : Nat) (e : Event)
    (he : e = .interrupt .vblank ∨ e = .notifyVblankEntry) :
    (arrivalEvents stat line dot).count e = if line = 144 ∧ dot = 0 then 1 else 0 := by
  have hnone (en : Bool) : (lcdStatIf en).count e = 0 :=
    count_lcdStatIf_of_ne en e (by rcases he with rfl | rfl <;> decide)
  have hvblank : (Event.interrupt .vblank :: (lcdStatIf (vblankIrqEnable stat) ++ [.notifyVblankEntry])).count e =
      1 := by
    rw [List.count_cons, List.count_append, hnone]
    rcases he with rfl | rfl <;> rfl
  unfold arrivalEvents
  simp only [apply_ite (List.count e), hvblank, hnone, List.count_nil]
  split_ifs <;> omega

section FrameEvents

variable {s} (hframe : s.InFrame) (hplace : s.place = 0)
include hframe hplace

/-- Where the dot step after the first `k` of a frame arrives. -/
theorem dotSteps_arrives {k : Nat} : (State.dotStep^[k + 1] s).dot ≤ 452 ∧
    456 * (State.dotStep^[k + 1] s).line + (State.dotStep^[k + 1] s).dot = (4 * (k + 1)) % 70224 := by
  obtain ⟨hin, hp⟩ := s.dotSteps_place (k + 1) hframe
  rw [hplace, Nat.zero_add] at hp
  exact ⟨hin.dot_le, hp⟩

theorem count_lcdStat_dotSteps (k : Nat) (hk : k ≤ 17556) :
    ((List.range k).flatMap fun j => eventsAt s (j + 1)).count (.interrupt .lcdStat) =
      (hblankIrqEnable (s.reg .stat)).toNat * hblankArrivals k +
      (oamScanIrqEnable (s.reg .stat)).toNat * oamScanArrivals k +
      (vblankIrqEnable (s.reg .stat)).toNat * vblankArrivals k := by
  induction k with
  | zero => rfl
  | succ k ih =>
    obtain ⟨hdot, hp⟩ := dotSteps_arrives hframe hplace (k := k)
    rw [List.range_succ, List.flatMap_append, List.flatMap_singleton, List.count_append, ih (by omega), eventsAt,
      count_lcdStat_arrivalEvents, hblankArrivals_succ hk hdot hp, oamScanArrivals_succ hk hdot hp,
      vblankArrivals_succ hk hdot hp]
    ring

theorem count_vblank_dotSteps (e : Event) (he : e = .interrupt .vblank ∨ e = .notifyVblankEntry) (k : Nat)
    (hk : k ≤ 17556) : ((List.range k).flatMap fun j => eventsAt s (j + 1)).count e = vblankArrivals k := by
  induction k with
  | zero => rfl
  | succ k ih =>
    obtain ⟨hdot, hp⟩ := dotSteps_arrives hframe hplace (k := k)
    rw [List.range_succ, List.flatMap_append, List.flatMap_singleton, List.count_append, ih (by omega), eventsAt,
      count_vblank_arrivalEvents _ _ _ e he, vblankArrivals_succ hk hdot hp]

end FrameEvents

/-- With LY ≠ LYC the comparator requests nothing. -/
theorem lycEvents_of_ne (h : s.reg .ly ≠ s.reg .lyc) : lycEvents s = [] := by
  rw [lycEvents_eq, if_neg fun heq => h heq.1]

/-- Settles O38: the comparator adds nothing, and the frame's 17556 dot steps the counts above. -/
theorem requestsOfOneFrame : Obligations.RequestsOfOneFrame := by
  unfold Obligations.RequestsOfOneFrame
  intro s hl hly hdot hmode hacc hlyc
  have hline : s.line = 0 := congrArg BitVec.toNat hly
  have hframe : s.lycCheck.InFrame := State.InFrame.lycCheck ⟨by omega, by omega, by omega⟩
  have hplace : s.lycCheck.place = 0 := by
    show 456 * s.line + s.dot = 0
    omega
  have hsync : s.lycCheck.Synced := (s.synced_of_line_start hdot (by omega) hmode).lycCheck
  have hsteps : (s.acc + 70224) / 4 = 17556 := by omega
  have hne : s.reg .ly ≠ s.reg .lyc := fun heq => hlyc (heq.symm.trans hly)
  have htrace : (s.advance 70224).trace =
      s.trace ++ (List.range 17556).flatMap fun j => eventsAt s.lycCheck (j + 1) := by
    rw [State.advance_on _ _ hl, State.setAcc_trace, hsteps, State.dotSteps_trace _ hframe hsync,
      State.lycCheck_trace, lycEvents_of_ne s hne, List.append_nil]
  refine ⟨s.advance 70224, _, exec_advance s 70224, htrace, ?_,
    count_vblank_dotSteps hframe hplace _ (.inl rfl) _ le_rfl,
    count_vblank_dotSteps hframe hplace _ (.inr rfl) _ le_rfl⟩
  have henable (i : Nat) (hi : i ≠ 2) : (s.lycCheck.reg .stat).getLsbD i = s.regs.stat.getLsbD i :=
    statWithCoincidence_other s.regs.stat _ i hi
  have hcount (en : Bool) (n : Nat) : en.toNat * n = if en = true then n else 0 := by cases en <;> simp
  rw [count_lcdStat_dotSteps hframe hplace _ le_rfl]
  simp only [hblankIrqEnable, oamScanIrqEnable, vblankIrqEnable, henable _ (by decide : 3 ≠ 2),
    henable _ (by decide : 5 ≠ 2), henable _ (by decide : 4 ≠ 2), hcount]
  rfl

/-! ## The rows of a frame (R108, R155) -/

/-- The frame buffer after ADVANCE is that after its dot steps, from a state that would render the same rows. -/
theorem State.advance_fb (n : Nat) (hl : s.lcdOn = true) :
    (s.advance n).fb = (State.dotStep^[(s.acc + n) / 4] s.lycCheck).fb := by
  rw [State.advance_on _ _ hl, State.setAcc_fb]

theorem FrameBuffer.pixel_of_row {f : FrameBuffer} {y x : Nat} {r : RegBank} {vram : Memory}
    (h : f.row y = renderRow r vram y) (hx : x < 160) : f.pixel y x = renderPixel r vram y x := by
  rw [FrameBuffer.pixel, h, renderRow_getD _ _ _ _ hx]

/-- A frame of dot steps arrives at dot 80 of every visible line. -/
theorem frame_arrives_at_row {place y : Nat} (hstep : place % 4 = 0) (hplace : place < 70224) (hy : y < 144) :
    ∃ j, 1 ≤ j ∧ j ≤ 17556 ∧ (place + 4 * j) % 70224 = 456 * y + 80 := by
  by_cases hahead : place < 456 * y + 80
  · exact ⟨(456 * y + 80 - place) / 4, by omega, by omega, by omega⟩
  · exact ⟨(456 * y + 80 + 70224 - place) / 4, by omega, by omega, by omega⟩

/-- Settles O39: the frame's dot steps arrive at dot 80 of line `y`, and render it there. -/
theorem oneFrameRendersEveryLine : Obligations.OneFrameRendersEveryLine := by
  unfold Obligations.OneFrameRendersEveryLine
  intro s hinv hsync hl
  refine ⟨s.advance 70224, exec_advance s 70224, fun y x hy hx => ?_⟩
  obtain ⟨hstep, hdot, hline⟩ := hinv.inFrame
  have hsteps : (s.acc + 70224) / 4 = 17556 := by have := hinv.acc_le; omega
  have hplace : s.lycCheck.place = 456 * s.line + s.dot := rfl
  have harrive := frame_arrives_at_row (place := s.lycCheck.place) (by omega) (by omega) hy
  have hrow := (s.lycCheck.dotSteps_row hinv.inFrame.lycCheck hsync.lycCheck 17556 y hy).1 harrive
  rw [State.fbPixel, s.advance_fb _ hl, hsteps]
  exact FrameBuffer.pixel_of_row hrow hx

/-- Settles O40: before the next arrival at dot 80 of a visible line no dot step changes the frame buffer. -/
theorem noRowChangesUntilTheNextDrawingEntry : Obligations.NoRowChangesUntilTheNextDrawingEntry := by
  unfold Obligations.NoRowChangesUntilTheNextDrawingEntry
  intro s n hinv hsync hl
  have hline : s.regs.ly.toNat = s.line := rfl
  have hplace : s.lycCheck.place = 456 * s.line + s.dot := rfl
  have same (hn : ∀ j, 1 ≤ j → j ≤ (s.acc + n) / 4 → ∀ y, y < 144 →
      (s.lycCheck.place + 4 * j) % 70224 ≠ 456 * y + 80) : (s.advance n).fb = s.fb := by
    rw [s.advance_fb _ hl, State.dotSteps_fb_same _ hinv.inFrame.lycCheck hsync.lycCheck _ hn, State.lycCheck_fb]
  rw [hline]
  exact ⟨s.advance n, exec_advance s n, fun hvisible hdot hn => same fun j _ _ y _ => by omega,
    fun hvblank hdot hn => same fun j _ _ y _ => by omega⟩

end Sys2Proof.Machine
end

section
/-! PROOFS. The first dots after a reset (spec/70_reset_and_hazards.md R281). -/

namespace Sys2Proof.Machine

/-! ## STAT after dot steps -/

/-- A mode entry puts the mode's number into STAT[1:0]. -/
theorem statWithMode_low (v : Byte) (m : Mode) (i : Nat) (h : i < 2) :
    (statWithMode v m).getLsbD i = (modeBits m).getLsbD i := by
  simp only [statWithMode, BitVec.getLsbD_append, h, if_true]

/-- A second mode entry hides the first. -/
theorem statWithMode_statWithMode (v : Byte) (m m' : Mode) :
    statWithMode (statWithMode v m) m' = statWithMode v m' := by
  refine BitVec.eq_of_getLsbD_eq fun i _ => ?_
  by_cases hi : i < 2
  · rw [statWithMode_low _ _ _ hi, statWithMode_low _ _ _ hi]
  · rw [statWithMode_high _ _ _ (by omega), statWithMode_high _ _ _ (by omega), statWithMode_high _ _ _ (by omega)]

/-- Dot steps from a synced state leave STAT with the mode of the position put in. -/
theorem State.Synced.dotSteps_reg_stat {s : State} (h : s.Synced) (k : Nat) : (State.dotStep^[k] s).reg .stat =
    statWithMode (s.reg .stat) (target (State.dotStep^[k] s).line (State.dotStep^[k] s).dot) := by
  induction k with
  | zero =>
    rw [Function.iterate_zero, id, ← show s.modeSt = _ from h]
    exact (statWithMode_self _).symm
  | succ k ih =>
    rw [Function.iterate_succ_apply', State.dotStep_reg_stat, ih, statWithMode_statWithMode, State.dotStep_line,
      State.dotStep_dot]

/-! ## From dot 4 to dot 80 -/

/-- Where 4 dots take a reset with the default registers: mode 2 of line 0, LY = LYC and no enable set in STAT. -/
structure State.FourDotsIn (t : State) : Prop where
  lcdOn : t.lcdOn = true
  ly : t.reg .ly = 0
  lyc : t.reg .lyc = 0
  stat : t.reg .stat = 0x86
  dot : t.dot = 4
  acc : t.acc = 0

section FourDotsIn

variable {t : State} (h : t.FourDotsIn)
include h

theorem State.FourDotsIn.line : t.line = 0 := congrArg BitVec.toNat h.ly

theorem State.FourDotsIn.inFrame : t.lycCheck.InFrame :=
  State.InFrame.lycCheck ⟨by rw [h.dot], by rw [h.dot]; decide, by rw [h.line]; decide⟩

theorem State.FourDotsIn.synced : t.lycCheck.Synced := by
  refine State.Synced.lycCheck ?_
  rw [State.Synced, State.modeSt, h.stat, h.line, h.dot]
  decide

/-- The comparator sets the flag that is set, and the enable of its request is clear. -/
theorem State.FourDotsIn.lycCheck_stat : t.lycCheck.reg .stat = 0x86 := by
  rw [State.lycCheck_reg_stat, h.stat, h.ly, h.lyc]
  decide

theorem State.FourDotsIn.lycEvents_nil : lycEvents t = [] := by
  rw [lycEvents, h.stat, h.ly, h.lyc]
  decide

/-- Up to dot 80 the place is that many dots into line 0. -/
theorem State.FourDotsIn.place (k : Nat) (hk : k ≤ 19) :
    (State.dotStep^[k] t.lycCheck).line = 0 ∧ (State.dotStep^[k] t.lycCheck).dot = 4 + 4 * k := by
  obtain ⟨hin, hplace⟩ := t.lycCheck.dotSteps_place k h.inFrame
  have hstart : t.lycCheck.place = 456 * t.line + t.dot := rfl
  have := hin.dot_le
  rw [hstart, h.line, h.dot, State.place] at hplace
  omega

/-- 76 dots further, mode 3 of line 0 is entered and its row rendered; nothing is requested on the way. -/
theorem State.FourDotsIn.advance : (t.advance 76).dot = 80 ∧ (t.advance 76).reg .stat = 0x87 ∧
    (t.advance 76).trace = t.trace ∧
    ∀ y, y < 144 → (t.advance 76).fb.row y = if y = 0 then renderRow t.regs t.vram 0 else t.fb.row y := by
  have hsteps : (t.acc + 76) / 4 = 19 := by rw [h.acc]
  obtain ⟨hline, hdot⟩ := h.place 19 le_rfl
  have hstat := h.synced.dotSteps_reg_stat 19
  have htrace := State.dotSteps_trace _ h.inFrame h.synced 19
  have hquiet : ((List.range 19).flatMap fun j => eventsAt t.lycCheck (j + 1)) = [] := by
    refine List.flatMap_eq_nil_iff.2 fun j hj => ?_
    obtain ⟨hline, hdot⟩ := h.place (j + 1) (List.mem_range.1 hj)
    have := List.mem_range.1 hj
    rw [eventsAt, hline, hdot, arrivalEvents, if_neg (by omega), if_neg (by omega), if_neg (by omega)]
  have hstart : t.lycCheck.place = 4 := by
    show 456 * t.line + t.dot = 4
    rw [h.line, h.dot]
  have hadv : t.advance 76 = (State.dotStep^[19] t.lycCheck).setAcc ((t.acc + 76) % 4) := by
    rw [State.advance_on t 76 h.lcdOn, hsteps]
  rw [hadv]
  refine ⟨(State.setAcc_dot _ _).trans hdot, ?_, ?_, fun y hy => ?_⟩
  · rw [State.setAcc_reg, hstat, hline, hdot, h.lycCheck_stat]
    decide
  · rw [State.setAcc_trace, htrace, hquiet, State.lycCheck_trace, h.lycEvents_nil, List.append_nil, List.append_nil]
  · obtain ⟨harrive, hnever⟩ := t.lycCheck.dotSteps_row h.inFrame h.synced 19 y hy
    have hrender : renderRow t.lycCheck.regs t.lycCheck.vram y = renderRow t.regs t.vram y := rfl
    rw [hstart, hrender] at harrive
    rw [hstart] at hnever
    rw [State.setAcc_fb]
    split
    next hy0 =>
      subst hy0
      exact harrive ⟨19, by omega, by omega, by omega⟩
    next hy0 => exact hnever fun j _ _ => by omega

end FourDotsIn

/-! ## From reset to dot 4 -/

section AfterReset

/-- The reset of R281: the default registers, with any OBP0, OBP1 and buffers. -/
def resetWithBuffers (obp0 obp1 : Byte) (vram oam : Memory) (fb : FrameBuffer) : State :=
  State.resetWith ⟨{ State.reset.regs with obp0 := obp0, obp1 := obp1 }, vram, oam, fb⟩

variable (obp0 obp1 : Byte) (vram oam : Memory) (fb : FrameBuffer)

theorem resetWithBuffers_lcdOn : (resetWithBuffers obp0 obp1 vram oam fb).lcdOn = true :=
  show lcdEnable 0x91 = true by decide

/-- The first 4 dots are one dot step. -/
theorem resetWithBuffers_advance : (resetWithBuffers obp0 obp1 vram oam fb).advance 4 =
    (resetWithBuffers obp0 obp1 vram oam fb).lycCheck.dotStep.setAcc 0 :=
  State.advance_one _ 4 (resetWithBuffers_lcdOn ..) (Nat.le_refl 4) (show (4 : Nat) < 8 by decide)

/-- It enters mode 2, from the mode 1 of the default STAT. -/
theorem resetWithBuffers_advance_fourDotsIn : ((resetWithBuffers obp0 obp1 vram oam fb).advance 4).FourDotsIn := by
  rw [resetWithBuffers_advance]
  refine ⟨?_, ?_, ?_, ?_, ?_, rfl⟩
  · rw [State.setAcc_lcdOn, State.dotStep_lcdOn, State.lycCheck_lcdOn, resetWithBuffers_lcdOn]
  · rw [State.setAcc_reg, State.dotStep_reg_ly]
    show nextLy 0 0 = 0
    decide
  · rw [State.setAcc_reg, State.dotStep_reg_other _ .lyc nofun nofun]
    rfl
  · rw [State.setAcc_reg, State.dotStep_reg_stat]
    show statWithMode (statWithCoincidence 0x85 (0x00 == 0x00)) (target 0 4) = 0x86
    decide
  · rw [State.setAcc_dot, State.dotStep_dot]
    rfl

/-- It requests nothing: the default STAT has every enable clear. -/
theorem resetWithBuffers_advance_trace : ((resetWithBuffers obp0 obp1 vram oam fb).advance 4).trace = [] := by
  have hcheck : (resetWithBuffers obp0 obp1 vram oam fb).lycCheck.trace = [] :=
    show [] ++ lcdStatIf ((0x00 : Byte) == 0x00 && lycIrqEnable 0x85) = [] by decide
  rw [resetWithBuffers_advance, State.setAcc_trace, State.dotStep_trace, hcheck, List.nil_append]
  refine ite_eq_left_iff.2 fun _ => ?_
  show entryEvents (statWithCoincidence 0x85 ((0x00 : Byte) == 0x00)) (target (nextLy 0 0).toNat (nextDot 0)) = []
  decide

/-- It renders nothing. -/
theorem resetWithBuffers_advance_fb : ((resetWithBuffers obp0 obp1 vram oam fb).advance 4).fb = fb := by
  rw [resetWithBuffers_advance, State.setAcc_fb, State.dotStep_fb]
  exact if_neg fun h => absurd h.1 (show target 0 4 ≠ .drawing by decide)

end AfterReset

/-- Settles O10: 4 dots into line 0, and from there to mode 3. -/
theorem firstDotsAfterReset : Obligations.FirstDotsAfterReset := by
  unfold Obligations.FirstDotsAfterReset
  intro obp0 obp1 vram oam fb
  have ht := resetWithBuffers_advance_fourDotsIn obp0 obp1 vram oam fb
  have htrace := resetWithBuffers_advance_trace obp0 obp1 vram oam fb
  have hfb := resetWithBuffers_advance_fb obp0 obp1 vram oam fb
  obtain ⟨hdot, hstat, htrace', hrow⟩ := ht.advance
  refine ⟨_, _, exec_advance _ 4, ht.dot, ht.ly, ht.stat, htrace, hfb, exec_advance _ 76, hdot, hstat,
    htrace'.trans htrace, fun y x hy hx => ?_⟩
  have hrow := hrow y hy
  rw [State.advance_vram, hfb] at hrow
  split
  next hy0 =>
    subst hy0
    exact FrameBuffer.pixel_of_row hrow hx
  next hy0 =>
    rw [if_neg hy0] at hrow
    exact congrArg (·.getD x unlistedPixel) hrow

end Sys2Proof.Machine
end

section
/-! PROOFS. An ADVANCE cut in two (spec/40_mode_state_machine.md R103, spec/70_reset_and_hazards.md R287): the second
comparison is all the difference. -/

namespace Sys2Proof.Machine

variable (s : State)

/-! ## The comparison apart (R102, R103) -/

/-- ADVANCE without its comparison: the dot steps, and the rest left in the accumulator. -/
def State.advanceDots (n : Nat) : State := (State.dotStep^[(s.acc + n) / 4] s).setAcc ((s.acc + n) % 4)

theorem State.advance_eq_advanceDots (n : Nat) (hl : s.lcdOn = true) : s.advance n = s.lycCheck.advanceDots n :=
  s.advance_on n hl

/-- Dot steps may be cut anywhere: the accumulator carries the rest (R103). -/
theorem State.advanceDots_add (a b : Nat) : s.advanceDots (a + b) = (s.advanceDots a).advanceDots b := by
  have hsteps : (s.acc + (a + b)) / 4 = ((s.acc + a) % 4 + b) / 4 + (s.acc + a) / 4 := by omega
  have hrest : (s.acc + (a + b)) % 4 = ((s.acc + a) % 4 + b) % 4 := by omega
  simp only [State.advanceDots, State.setAcc_acc, State.dotSteps_setAcc, hsteps, hrest, Function.iterate_add_apply]
  rfl

/-- So the second of two ADVANCEs differs from the rest of one in its comparison alone. -/
theorem State.advance_add (a b : Nat) (hl : s.lcdOn = true) : s.advance (a + b) = (s.advance a).advanceDots b := by
  rw [State.advance_eq_advanceDots _ _ hl, State.advance_eq_advanceDots _ _ hl, State.advanceDots_add]

/-! ## LYC out of range (R27) -/

theorem statWithCoincidence_self (v : Byte) : statWithCoincidence v (coincidence v) = v := by
  refine BitVec.eq_of_getLsbD_eq fun i _ => ?_
  by_cases hi : i = 2
  · subst hi
    exact coincidence_statWithCoincidence v _
  · exact statWithCoincidence_other v _ i hi

/-- A comparison that finds no equality and a cleared flag changes nothing. -/
theorem State.lycCheck_eq_self (hne : s.reg .ly ≠ s.reg .lyc) (hflag : coincidence (s.reg .stat) = false) :
    s.lycCheck = s := by
  have hbeq : (s.reg .ly == s.reg .lyc) = coincidence (s.reg .stat) := by rw [hflag, beq_eq_false_iff_ne.2 hne]
  have hstat : s.setReg .stat (statWithCoincidence (s.reg .stat) (s.reg .ly == s.reg .lyc)) = s := by
    rw [hbeq, statWithCoincidence_self]
    rfl
  show (s.setReg .stat _).emit (lycEvents s) = s
  rw [hstat, lycEvents_of_ne s hne, State.emit, List.append_nil]

/-- ADVANCE leaves STAT[2] as its comparison set it. -/
theorem State.advance_coincidence (n : Nat) (hl : s.lcdOn = true) :
    coincidence ((s.advance n).reg .stat) = (s.reg .ly == s.reg .lyc) := by
  rw [State.advance_on _ _ hl, State.setAcc_reg, coincidence, State.dotSteps_stat_high _ _ _ (by decide)]
  exact coincidence_statWithCoincidence _ _

/-- Settles O42: the second comparison finds no equality, and the flag cleared by the first. -/
theorem splitAdvanceIsOneAdvanceWithLycOutOfRange : Obligations.SplitAdvanceIsOneAdvanceWithLycOutOfRange := by
  unfold Obligations.SplitAdvanceIsOneAdvanceWithLycOutOfRange
  intro s a b hinv hlyc
  refine ⟨s.advance a, (s.advance a).advance b, exec_advance s a, exec_advance _ b, ?_⟩
  rw [exec_advance]
  cases hl : s.lcdOn with
  | false => rw [State.advance_off _ _ hl, State.advance_off _ _ hl, State.advance_off _ _ hl]
  | true =>
    have hne {t : State} (ht : t.Inv) (hreg : t.reg .lyc = s.reg .lyc) : t.reg .ly ≠ t.reg .lyc := fun heq => by
      have hle : (t.reg .ly).toNat ≤ 153 := ht.line_le
      rw [heq, hreg] at hle
      exact absurd hlyc hle.not_gt
    have hflag : coincidence ((s.advance a).reg .stat) = false := by
      rw [State.advance_coincidence _ _ hl, beq_eq_false_iff_ne.2 (hne hinv rfl)]
    have hcheck := State.lycCheck_eq_self _ (hne (hinv.advance a) (s.advance_reg a .lyc nofun nofun)) hflag
    rw [State.advance_add _ _ _ hl, State.advance_eq_advanceDots _ b ((s.advance_lcdOn a).trans hl), hcheck]

/-! ## What the comparison can change (R287) -/

/-- The state without STAT and the trace, the two places the comparator writes. -/
def State.sansComparison : State := { s with regs := s.regs.set .stat 0, trace := [] }

/-- Two states alike but for STAT[2] and LCD_STAT requests. -/
structure SameButComparison (s t : State) : Prop where
  rest : s.sansComparison = t.sansComparison
  stat : ∀ i, i ≠ 2 → (s.reg .stat).getLsbD i = (t.reg .stat).getLsbD i
  trace : s.trace.filter (fun e => decide (e ≠ .interrupt .lcdStat)) =
    t.trace.filter (fun e => decide (e ≠ .interrupt .lcdStat))

/-- Requests of LCD_STAT alone are filtered away. -/
theorem filter_lcdStatIf (en : Bool) :
    (lcdStatIf en).filter (fun e => decide (e ≠ .interrupt .lcdStat)) = [] := by cases en <;> rfl

/-- The comparator changes no more than that. -/
theorem sameButComparison_lycCheck : SameButComparison s.lycCheck s where
  rest := rfl
  stat := statWithCoincidence_other (s.reg .stat) _
  trace := by rw [State.lycCheck_trace, List.filter_append, lycEvents, filter_lcdStatIf, List.append_nil]

section SameButComparison

variable {s} {t : State} (h : SameButComparison s t)
include h

theorem SameButComparison.dot : s.dot = t.dot := (congrArg State.dot h.rest :)

theorem SameButComparison.acc : s.acc = t.acc := (congrArg State.acc h.rest :)

theorem SameButComparison.line : s.line = t.line := (congrArg State.line h.rest :)

theorem SameButComparison.setAcc (a : Nat) : SameButComparison (s.setAcc a) (t.setAcc a) where
  rest := congrArg (State.setAcc · a) h.rest
  stat := h.stat
  trace := h.trace

theorem SameButComparison.tick : SameButComparison s.tick t.tick where
  rest := congrArg State.tick h.rest
  stat := h.stat
  trace := h.trace

/-- The stored mode is STAT[1:0], which the comparator keeps. -/
theorem SameButComparison.modeSt : s.modeSt = t.modeSt := by
  have hbits : (s.reg .stat).extractLsb' 0 2 = (t.reg .stat).extractLsb' 0 2 := by
    refine BitVec.eq_of_getLsbD_eq fun i hi => ?_
    simp only [BitVec.getLsbD_extractLsb', h.stat (0 + i) (by omega)]
  exact congrArg modeOfBits hbits

theorem SameButComparison.entryEvents_stat (m : Mode) : entryEvents (s.reg .stat) m = entryEvents (t.reg .stat) m := by
  simp only [entryEvents_eq, h.stat 5 (by decide), h.stat 4 (by decide), h.stat 3 (by decide)]

theorem SameButComparison.statWithMode_bits (m : Mode) (i : Nat) (hi : i ≠ 2) :
    (statWithMode (s.reg .stat) m).getLsbD i = (statWithMode (t.reg .stat) m).getLsbD i := by
  by_cases hlow : i < 2
  · rw [statWithMode_low _ _ _ hlow, statWithMode_low _ _ _ hlow]
  · rw [statWithMode_high _ _ _ (by omega), statWithMode_high _ _ _ (by omega), h.stat i hi]

theorem SameButComparison.enterMode (m : Mode) : SameButComparison (s.enterMode m) (t.enterMode m) where
  rest := by
    have hcomm (u : State) : (u.enterMode m).sansComparison = (u.sansComparison.enterMode m).sansComparison := by
      cases m <;> rfl
    rw [hcomm s, hcomm t, h.rest]
  stat := by
    simp only [State.enterMode_reg_stat]
    exact h.statWithMode_bits m
  trace := by
    rw [State.enterMode_trace, State.enterMode_trace, List.filter_append, List.filter_append, h.trace,
      h.entryEvents_stat]

theorem SameButComparison.settle : SameButComparison s.settle t.settle := by
  unfold State.settle
  rw [h.line, h.dot, h.modeSt]
  split
  · exact h
  · exact h.enterMode _

theorem SameButComparison.dotStep : SameButComparison s.dotStep t.dotStep := h.tick.settle

theorem SameButComparison.dotSteps (k : Nat) : SameButComparison (State.dotStep^[k] s) (State.dotStep^[k] t) := by
  induction k with
  | zero => exact h
  | succ k ih =>
    rw [Function.iterate_succ_apply', Function.iterate_succ_apply']
    exact ih.dotStep

theorem SameButComparison.advanceDots (n : Nat) : SameButComparison (s.advanceDots n) (t.advanceDots n) := by
  rw [State.advanceDots, State.advanceDots, h.acc]
  exact (h.dotSteps _).setAcc _

/-- The same in the words of R287: put back what the comparator writes, and the states are one. -/
theorem SameButComparison.eq_update : s = { t with regs := { t.regs with stat := s.regs.stat }, trace := s.trace } :=
  congrArg (fun u : State => { u with regs := u.regs.set .stat s.regs.stat, trace := s.trace }) h.rest

end SameButComparison

theorem SameButComparison.refl : SameButComparison s s := ⟨rfl, fun _ _ => rfl, rfl⟩

/-- Two ADVANCEs and one of both counts. -/
theorem sameButComparison_advance_advance (a b : Nat) :
    SameButComparison ((s.advance a).advance b) (s.advance (a + b)) := by
  cases hl : s.lcdOn with
  | false =>
    rw [State.advance_off _ _ hl, State.advance_off _ _ hl, State.advance_off _ _ hl]
    exact .refl s
  | true =>
    rw [State.advance_add _ _ _ hl, State.advance_eq_advanceDots _ b ((s.advance_lcdOn a).trans hl)]
    exact (sameButComparison_lycCheck (s.advance a)).advanceDots b

/-- Settles O41: the second comparison is all the difference. -/
theorem batchingShowsOnlyInTheComparison : Obligations.BatchingShowsOnlyInTheComparison := by
  unfold Obligations.BatchingShowsOnlyInTheComparison
  intro s a b
  have hsame := sameButComparison_advance_advance s a b
  exact ⟨s.advance a, _, _, exec_advance s a, exec_advance _ b, exec_advance s (a + b), hsame.eq_update, hsame.stat,
    hsame.trace⟩

end Sys2Proof.Machine
end

section
/-! PROOFS. The renderer's pixels (spec/41_scanline_renderer.md): the formula of a pixel (R140-R152), the VRAM it reads
(R140), and the entries it makes (R159). -/

namespace Sys2Proof.Machine

variable (r : RegBank) (vram : Memory) (ly px : Nat)

/-! ## Layer and coordinates (R141-R146) -/

/-- The VRAM offset of the tile map of a pixel's layer. -/
def mapStart : Nat :=
  if isWindowPixel r ly px then (if winMapBit r.lcdc then 0x1C00 else 0x1800)
  else (if bgMapBit r.lcdc then 0x1C00 else 0x1800)

theorem pixelMap_offset : pixelMap r ly px - 0x8000 = mapStart r ly px := by
  unfold pixelMap mapStart
  split <;> exact mapBase_offset _

/-- R147 from the start of the map. -/
theorem mapOffset_eq : mapOffset (pixelMap r ly px) (pixelX r ly px) (pixelY r ly px) =
    mapStart r ly px + 32 * (pixelY r ly px / 8) + pixelX r ly px / 8 := by
  rw [mapOffset, pixelMap_offset]

/-- Layer, map and coordinates of a pixel, as one case split on its layer. -/
theorem layer_eq :
    if r.lcdc.getLsbD 5 = true ∧ r.wy.toNat ≤ ly ∧ r.wx.toNat ≤ px + 7 then
      mapStart r ly px = (if r.lcdc.getLsbD 6 = true then 0x1C00 else 0x1800) ∧
        pixelX r ly px + r.wx.toNat = px + 7 ∧ pixelY r ly px + r.wy.toNat = ly
    else
      mapStart r ly px = (if r.lcdc.getLsbD 3 = true then 0x1C00 else 0x1800) ∧
        pixelX r ly px = (px + r.scx.toNat) % 256 ∧ pixelY r ly px = (ly + r.scy.toNat) % 256 := by
  have hwin := isWindowPixel_iff r ly px
  unfold mapStart pixelX pixelY
  split
  next hlayer =>
    have ⟨_, hwy, hwx⟩ := hlayer
    rw [if_pos (hwin.2 hlayer), if_pos (hwin.2 hlayer), if_pos (hwin.2 hlayer)]
    exact ⟨rfl, by omega, by omega⟩
  next hlayer =>
    rw [if_neg (mt hwin.1 hlayer), if_neg (mt hwin.1 hlayer), if_neg (mt hwin.1 hlayer)]
    exact ⟨rfl, rfl, rfl⟩

/-- A pixel of the screen has coordinates inside a map of 32 by 32 tiles. -/
theorem pixel_coordinates_lt (hly : ly < 144) (hpx : px < 160) : pixelX r ly px < 256 ∧ pixelY r ly px < 256 := by
  have hlayer := layer_eq r ly px
  split at hlayer
  · obtain ⟨-, hx, hy⟩ := hlayer
    omega
  · obtain ⟨-, hx, hy⟩ := hlayer
    omega

theorem mapStart_eq_or : mapStart r ly px = 0x1800 ∨ mapStart r ly px = 0x1C00 := by
  unfold mapStart
  repeat' split
  all_goals simp

/-! ## The pixel (R147-R152) -/

/-- R152 on a whole entry. -/
theorem renderPixel_toNat (ci : Nat) (hci : (pixelColor r vram ly px).toNat = ci) :
    (renderPixel r vram ly px).r.toNat = 255 - 85 * (r.bgp.toNat / 2 ^ (2 * ci) % 4) ∧
    (renderPixel r vram ly px).g.toNat = 255 - 85 * (r.bgp.toNat / 2 ^ (2 * ci) % 4) ∧
    (renderPixel r vram ly px).b.toNat = 255 - 85 * (r.bgp.toNat / 2 ^ (2 * ci) % 4) ∧
    (renderPixel r vram ly px).a.toNat = 255 := by
  have hgray : (gray (shade r.bgp (pixelColor r vram ly px))).toNat = 255 - 85 * (r.bgp.toNat / 2 ^ (2 * ci) % 4) := by
    rw [gray_toNat, shade_toNat, hci]
  exact ⟨hgray, hgray, hgray, rfl⟩

/-- Settles O43: each intermediate value is the renderer's own, as a number. -/
theorem renderedPixelIsTheSpecsFormula : Obligations.RenderedPixelIsTheSpecsFormula := by
  unfold Obligations.RenderedPixelIsTheSpecsFormula
  intro r vram ly px _ _
  refine ⟨mapStart r ly px, pixelX r ly px, pixelY r ly px, (pixelTile r vram ly px).toNat, _,
    (vram.readByte (pixelRow r vram ly px)).toNat, (vram.readByte (pixelRow r vram ly px + 1)).toNat, _, _,
    layer_eq r ly px, ?_, rfl, ?_, ?_, rfl, rfl, renderPixel_toNat r vram ly px _ (colorIndex_toNat _ _ _)⟩
  · rw [pixelTile, mapOffset_eq]
  · rw [pixelRow, rowOffset_eq]
    rfl
  · rw [pixelRow, rowOffset_eq]
    rfl

/-- Settles O44: map and coordinates are in range, and a tile's bit-planes end below the tile maps. -/
theorem renderAddressesStayInVram : Obligations.RenderAddressesStayInVram := by
  unfold Obligations.RenderAddressesStayInVram
  intro r vram ly px hly hpx
  obtain ⟨hx, hy⟩ := pixel_coordinates_lt r ly px hly hpx
  have hmap := mapStart_eq_or r ly px
  have htile := (pixelTile r vram ly px).isLt
  rw [mapOffset_eq, pixelRow, rowOffset_eq]
  refine ⟨by omega, by omega, ?_⟩
  split_ifs <;> omega

/-! ## A blank VRAM (R140) -/

theorem colorIndex_zero (x : Nat) : colorIndex 0 0 x = 0 := by simp [colorIndex]

/-- With VRAM all zero every color index is 0, whatever tile is fetched. -/
theorem renderPixel_blank (hvram : ∀ o, vram.readByte o = 0) (hbgp : r.bgp.toNat % 4 = 0) :
    renderPixel r vram ly px = ⟨0xFF, 0xFF, 0xFF, 0xFF⟩ := by
  have hcolor : pixelColor r vram ly px = 0 := by rw [pixelColor, hvram, hvram, colorIndex_zero]
  have hshade : shade r.bgp 0 = 0 := by
    refine BitVec.eq_of_toNat_eq ?_
    rw [shade_toNat]
    simpa using hbgp
  rw [renderPixel, hcolor, hshade]
  rfl

/-- Settles O45: the dot step renders the row from the starting registers and VRAM, as O35 has it. -/
theorem blankVramRendersWhite : Obligations.BlankVramRendersWhite := by
  unfold Obligations.BlankVramRendersWhite
  intro s n hl hacc hacc' hmode hvram hbgp
  obtain ⟨t, ht, henters, -⟩ := drawingEntryRendersTheLine s n hl hacc hacc'
  refine ⟨t, ht, fun hdraw x hx => ?_⟩
  obtain ⟨-, -, -, hline, -⟩ := henters ⟨hdraw, hmode⟩
  rw [hline x hx, renderPixel_blank _ _ _ _ hvram hbgp]

/-! ## The entries (R159) -/

/-- The four opaque grays. -/
def grays : List Pixel :=
  [⟨0xFF, 0xFF, 0xFF, 0xFF⟩, ⟨0xAA, 0xAA, 0xAA, 0xFF⟩, ⟨0x55, 0x55, 0x55, 0xFF⟩, ⟨0x00, 0x00, 0x00, 0xFF⟩]

/-- A dot step leaves an entry as it is or makes it a gray. -/
theorem State.dotStep_fbPixel (s : State) (y x : Nat) (hx : x < 160) :
    s.dotStep.fbPixel y x = s.fbPixel y x ∨ s.dotStep.fbPixel y x ∈ grays := by
  by_cases hdraw : s.dotStep.modeSt = .drawing ∧ s.modeSt ≠ .drawing
  · obtain ⟨hline, hother⟩ := s.dotStep_fbPixel_of_enters_drawing hdraw.1 hdraw.2
    by_cases hy : y = s.dotStep.line
    · exact .inr (hy ▸ hline x hx ▸ grayPixel_mem _)
    · exact .inl (hother y x hy)
  · have hfb := (s.dotStep_of_not_enters_drawing ((not_and_or.1 hdraw).imp_right not_not.1)).1
    exact .inl (congrArg (·.pixel y x) hfb)

/-- Settles O46: entry by entry, through the dot steps of ADVANCE. -/
theorem renderedEntriesAreFourGrays : Obligations.RenderedEntriesAreFourGrays := by
  unfold Obligations.RenderedEntriesAreFourGrays
  intro s n
  refine ⟨s.advance n, exec_advance s n, fun y x hx => ?_⟩
  refine s.advance_keeps (P := fun t => t.fbPixel y x = s.fbPixel y x ∨ t.fbPixel y x ∈ grays) (fun _ h => h)
    (fun t ht => ?_) (fun _ h _ _ => h) n (.inl rfl)
  rcases t.dotStep_fbPixel y x hx with hsame | hgray
  · rw [hsame]
    exact ht
  · exact .inr hgray

end Sys2Proof.Machine
end
